-- ==== Sys2Proof/Word.lean ====
section
/-! DEFINITION. The word types of the machine (spec 00_scope.md R5, R8) and the name of register VF. -/

namespace Sys2Proof

/-- Width of a general register, a timer, the stack pointer and a memory cell (R5 XLEN, TLEN, SPLEN). -/
abbrev Byte := BitVec 8

/-- Width of an instruction word, of `I`, of `pc` and of a call-stack entry (R5 ILEN, PCLEN, STACK_ENTRY). -/
abbrev Word := BitVec 16

/-- Index of one of the sixteen general registers (R20). -/
abbrev Reg := Fin 16

/-- VF is general register 15 (R21). -/
abbrev vF : Reg := 15

/-- V0, the implicit operand of Bnnn (R108). -/
abbrev v0 : Reg := 0

end Sys2Proof
end

