-- ==== Sys2Proof/Syntax.lean ====
section
/-! DEFINITION. The 34 instructions, one constructor per row of spec/opcode_table.json (30_encoding.md R76, R80).
Operands are those of R71 and R72: `x`, `y` are register indices, `nn` an unsigned byte, `nnn` an address already
zero-extended to 16 bits, `n` a row count.
`WellFormed.lean` says which operand values a word can carry. -/

namespace Sys2Proof

inductive Instr where
  /-- 00E0, clear the framebuffer (R160). -/
  | cls
  /-- 00EE, return from subroutine (R101). -/
  | ret
  /-- 1nnn, jump (R102). -/
  | jp (nnn : Word)
  /-- 2nnn, call subroutine (R103). -/
  | call (nnn : Word)
  /-- 3xnn, skip if Vx = nn (R104). -/
  | seVxNn (x : Reg) (nn : Byte)
  /-- 4xnn, skip if Vx ≠ nn (R105). -/
  | sneVxNn (x : Reg) (nn : Byte)
  /-- 5xy0, skip if Vx = Vy (R106). -/
  | seVxVy (x y : Reg)
  /-- 6xnn, load byte (R120). -/
  | ldVxNn (x : Reg) (nn : Byte)
  /-- 7xnn, add byte (R121). -/
  | addVxNn (x : Reg) (nn : Byte)
  /-- 8xy0, copy register (R122). -/
  | ldVxVy (x y : Reg)
  /-- 8xy1, bitwise or (R123). -/
  | orVxVy (x y : Reg)
  /-- 8xy2, bitwise and (R124). -/
  | andVxVy (x y : Reg)
  /-- 8xy3, bitwise exclusive or (R125). -/
  | xorVxVy (x y : Reg)
  /-- 8xy4, add with carry out (R126). -/
  | addVxVy (x y : Reg)
  /-- 8xy5, subtract Vy from Vx (R127). -/
  | subVxVy (x y : Reg)
  /-- 8xy6, shift Vx right by one; `y` is decoded and ignored (R128). -/
  | shrVx (x y : Reg)
  /-- 8xy7, subtract Vx from Vy (R129). -/
  | subnVxVy (x y : Reg)
  /-- 8xyE, shift Vx left by one; `y` is decoded and ignored (R130). -/
  | shlVx (x y : Reg)
  /-- 9xy0, skip if Vx ≠ Vy (R107). -/
  | sneVxVy (x y : Reg)
  /-- Annn, load the index register (R140). -/
  | ldINnn (nnn : Word)
  /-- Bnnn, jump with offset V0 (R108). -/
  | jpV0 (nnn : Word)
  /-- Cxnn, random byte under mask (R131). -/
  | rnd (x : Reg) (nn : Byte)
  /-- Dxyn, draw an `n`-row sprite and detect collision (R161). -/
  | drw (x y : Reg) (n : Nat)
  /-- Ex9E, skip if key Vx is pressed (R170). -/
  | skp (x : Reg)
  /-- ExA1, skip if key Vx is not pressed (R171). -/
  | sknp (x : Reg)
  /-- Fx07, read the delay timer (R173). -/
  | ldVxDt (x : Reg)
  /-- Fx0A, wait for a key (R172). -/
  | ldVxK (x : Reg)
  /-- Fx15, set the delay timer (R174). -/
  | ldDtVx (x : Reg)
  /-- Fx18, set the sound timer (R175). -/
  | ldStVx (x : Reg)
  /-- Fx1E, add register to the index register (R141). -/
  | addIVx (x : Reg)
  /-- Fx29, load a font glyph's address (R142). -/
  | ldFVx (x : Reg)
  /-- Fx33, store decimal digits (R143). -/
  | ldBVx (x : Reg)
  /-- Fx55, store registers V0 to Vx (R144). -/
  | ldMiVx (x : Reg)
  /-- Fx65, load registers V0 to Vx (R145). -/
  | ldVxMi (x : Reg)
  deriving DecidableEq, Repr

end Sys2Proof
end

