-- ==== Sys2Proof/WellFormed.lean ====
section
/-! DEFINITION. Which instructions a 16-bit word can carry (30_encoding.md R71, R72, R78): an address operand has
12 bits, a row count 4 bits; every register index and every byte is legal, and the operand types say so. -/

namespace Sys2Proof

/-- `nnn = w[11:0]` is 0x000 to 0xFFF (R71). -/
def addressFits (nnn : Word) : Bool := decide (nnn.toNat < 0x1000)

/-- `n = w[3:0]` is 0 to 15 (R71). -/
def rowCountFits (n : Nat) : Bool := decide (n < 16)

/-- The operands fit the fields of the instruction's format (R71, R78). -/
def Instr.wellFormed : Instr → Bool
  | .cls | .ret => true
  | .jp nnn | .call nnn | .ldINnn nnn | .jpV0 nnn => addressFits nnn
  | .seVxNn _ _ | .sneVxNn _ _ | .ldVxNn _ _ | .addVxNn _ _ | .rnd _ _ => true
  | .seVxVy _ _ | .sneVxVy _ _ => true
  | .ldVxVy _ _ | .orVxVy _ _ | .andVxVy _ _ | .xorVxVy _ _ => true
  | .addVxVy _ _ | .subVxVy _ _ | .shrVx _ _ | .subnVxVy _ _ | .shlVx _ _ => true
  | .drw _ _ n => rowCountFits n
  | .skp _ | .sknp _ => true
  | .ldVxDt _ | .ldVxK _ | .ldDtVx _ | .ldStVx _ => true
  | .addIVx _ | .ldFVx _ | .ldBVx _ | .ldMiVx _ | .ldVxMi _ => true

end Sys2Proof
end

