-- ==== Sys2Proof/Decode.lean ====
section
/-! DEFINITION. Decoding (30_encoding.md R71 to R78), then the encoder and the opcode map R76 written from the same
tables. Decoding depends on the word alone (R92) and is total: a word of no pattern is rejected by name (R77). -/

namespace Sys2Proof

/-- Why bytes are no instruction. -/
inductive DecodeReject where
  /-- The word matches none of the 34 patterns (R75, R77). -/
  | noPattern (w : Word)
  /-- Fewer than the two bytes every instruction has (R70). -/
  | tooFewBytes
  deriving DecidableEq, Repr

/-- `w[15:12]`, the primary dispatch nibble (R73). -/
def groupOf (w : Word) : Nat := (w.extractLsb' 12 4).toNat

/-- `x = w[11:8]` (R10). -/
def fieldX (w : Word) : Reg := ⟨(w.extractLsb' 8 4).toNat, (w.extractLsb' 8 4).isLt⟩

/-- `y = w[7:4]` (R10). -/
def fieldY (w : Word) : Reg := ⟨(w.extractLsb' 4 4).toNat, (w.extractLsb' 4 4).isLt⟩

/-- `n = w[3:0]` (R10), also the function code of groups 5, 8 and 9 (R74). -/
def fieldN (w : Word) : Nat := (w.extractLsb' 0 4).toNat

/-- `nn = w[7:0]` (R10), also the function code of groups E and F (R74). -/
def fieldNN (w : Word) : Byte := w.extractLsb' 0 8

/-- `zext_16(nnn)` with `nnn = w[11:0]` (R10, R72). -/
def fieldNNN (w : Word) : Word := (w.extractLsb' 0 12).setWidth 16

/-- The word with its high byte at the lower address (R51). -/
def wordOf (hi lo : Byte) : Word := hi ++ lo

/-- Group 0 holds the fixed words 0x00E0 and 0x00EE and nothing else (R75). -/
def decodeGroup0 (w : Word) : Except DecodeReject Instr :=
  if w = 0x00E0#16 then .ok .cls
  else if w = 0x00EE#16 then .ok .ret
  else .error (.noPattern w)

/-- Group 8 selects on `w[3:0]` (R74, R75). -/
def decodeGroup8 (w : Word) : Except DecodeReject Instr :=
  match fieldN w with
  | 0x0 => .ok (.ldVxVy (fieldX w) (fieldY w))
  | 0x1 => .ok (.orVxVy (fieldX w) (fieldY w))
  | 0x2 => .ok (.andVxVy (fieldX w) (fieldY w))
  | 0x3 => .ok (.xorVxVy (fieldX w) (fieldY w))
  | 0x4 => .ok (.addVxVy (fieldX w) (fieldY w))
  | 0x5 => .ok (.subVxVy (fieldX w) (fieldY w))
  | 0x6 => .ok (.shrVx (fieldX w) (fieldY w))
  | 0x7 => .ok (.subnVxVy (fieldX w) (fieldY w))
  | 0xE => .ok (.shlVx (fieldX w) (fieldY w))
  | _ => .error (.noPattern w)

/-- Group E selects on `w[7:0]` (R74, R75). -/
def decodeGroupE (w : Word) : Except DecodeReject Instr :=
  if fieldNN w = 0x9E#8 then .ok (.skp (fieldX w))
  else if fieldNN w = 0xA1#8 then .ok (.sknp (fieldX w))
  else .error (.noPattern w)

/-- Group F selects on `w[7:0]` (R74, R75). -/
def decodeGroupF (w : Word) : Except DecodeReject Instr :=
  if fieldNN w = 0x07#8 then .ok (.ldVxDt (fieldX w))
  else if fieldNN w = 0x0A#8 then .ok (.ldVxK (fieldX w))
  else if fieldNN w = 0x15#8 then .ok (.ldDtVx (fieldX w))
  else if fieldNN w = 0x18#8 then .ok (.ldStVx (fieldX w))
  else if fieldNN w = 0x1E#8 then .ok (.addIVx (fieldX w))
  else if fieldNN w = 0x29#8 then .ok (.ldFVx (fieldX w))
  else if fieldNN w = 0x33#8 then .ok (.ldBVx (fieldX w))
  else if fieldNN w = 0x55#8 then .ok (.ldMiVx (fieldX w))
  else if fieldNN w = 0x65#8 then .ok (.ldVxMi (fieldX w))
  else .error (.noPattern w)

/-- `Decode(w)` of R75, total on all 65536 words. -/
def decode (w : Word) : Except DecodeReject Instr :=
  match groupOf w with
  | 0x0 => decodeGroup0 w
  | 0x1 => .ok (.jp (fieldNNN w))
  | 0x2 => .ok (.call (fieldNNN w))
  | 0x3 => .ok (.seVxNn (fieldX w) (fieldNN w))
  | 0x4 => .ok (.sneVxNn (fieldX w) (fieldNN w))
  | 0x5 => if fieldN w = 0 then .ok (.seVxVy (fieldX w) (fieldY w)) else .error (.noPattern w)
  | 0x6 => .ok (.ldVxNn (fieldX w) (fieldNN w))
  | 0x7 => .ok (.addVxNn (fieldX w) (fieldNN w))
  | 0x8 => decodeGroup8 w
  | 0x9 => if fieldN w = 0 then .ok (.sneVxVy (fieldX w) (fieldY w)) else .error (.noPattern w)
  | 0xA => .ok (.ldINnn (fieldNNN w))
  | 0xB => .ok (.jpV0 (fieldNNN w))
  | 0xC => .ok (.rnd (fieldX w) (fieldNN w))
  | 0xD => .ok (.drw (fieldX w) (fieldY w) (fieldN w))
  | 0xE => decodeGroupE w
  | 0xF => decodeGroupF w
  | _ => .error (.noPattern w)

/-- The first instruction of a byte sequence and the bytes after it: two bytes, high byte first (R51, R70). -/
def decodeBytes : List Byte → Except DecodeReject (Instr × List Byte)
  | hi :: lo :: rest =>
    match decode (wordOf hi lo) with
    | .ok i => .ok (i, rest)
    | .error e => .error e
  | _ => .error .tooFewBytes

/-- Format A: a group and a 12-bit address (R71). -/
def wordA (matchBits : Nat) (nnn : Word) : Word := BitVec.ofNat 16 (matchBits + nnn.toNat)

/-- Format XK: a group, a register and a byte (R71). -/
def wordXK (matchBits : Nat) (x : Reg) (nn : Byte) : Word :=
  BitVec.ofNat 16 (matchBits + 0x100 * x.val + nn.toNat)

/-- Formats XY and XYN: a group, two registers and a low nibble (R71). -/
def wordXYN (matchBits : Nat) (x y : Reg) (n : Nat) : Word :=
  BitVec.ofNat 16 (matchBits + 0x100 * x.val + 0x10 * y.val + n)

/-- Format XF: a group, a register and a function byte (R71). -/
def wordXF (matchBits : Nat) (x : Reg) : Word := BitVec.ofNat 16 (matchBits + 0x100 * x.val)

/-- The word of an instruction: the row's `match` value of R76 with the fields at their positions of R71.
It is the instruction's word when the instruction is well-formed. -/
def encode : Instr → Word
  | .cls => 0x00E0#16
  | .ret => 0x00EE#16
  | .jp nnn => wordA 0x1000 nnn
  | .call nnn => wordA 0x2000 nnn
  | .seVxNn x nn => wordXK 0x3000 x nn
  | .sneVxNn x nn => wordXK 0x4000 x nn
  | .seVxVy x y => wordXYN 0x5000 x y 0x0
  | .ldVxNn x nn => wordXK 0x6000 x nn
  | .addVxNn x nn => wordXK 0x7000 x nn
  | .ldVxVy x y => wordXYN 0x8000 x y 0x0
  | .orVxVy x y => wordXYN 0x8000 x y 0x1
  | .andVxVy x y => wordXYN 0x8000 x y 0x2
  | .xorVxVy x y => wordXYN 0x8000 x y 0x3
  | .addVxVy x y => wordXYN 0x8000 x y 0x4
  | .subVxVy x y => wordXYN 0x8000 x y 0x5
  | .shrVx x y => wordXYN 0x8000 x y 0x6
  | .subnVxVy x y => wordXYN 0x8000 x y 0x7
  | .shlVx x y => wordXYN 0x8000 x y 0xE
  | .sneVxVy x y => wordXYN 0x9000 x y 0x0
  | .ldINnn nnn => wordA 0xA000 nnn
  | .jpV0 nnn => wordA 0xB000 nnn
  | .rnd x nn => wordXK 0xC000 x nn
  | .drw x y n => wordXYN 0xD000 x y n
  | .skp x => wordXF 0xE09E x
  | .sknp x => wordXF 0xE0A1 x
  | .ldVxDt x => wordXF 0xF007 x
  | .ldVxK x => wordXF 0xF00A x
  | .ldDtVx x => wordXF 0xF015 x
  | .ldStVx x => wordXF 0xF018 x
  | .addIVx x => wordXF 0xF01E x
  | .ldFVx x => wordXF 0xF029 x
  | .ldBVx x => wordXF 0xF033 x
  | .ldMiVx x => wordXF 0xF055 x
  | .ldVxMi x => wordXF 0xF065 x

/-- The bytes of an instruction as they lie in memory, high byte at the lower address (R51). -/
def encodeBytes (i : Instr) : List Byte := [(encode i).extractLsb' 8 8, (encode i).extractLsb' 0 8]

/-- One row of the opcode map R76: a word belongs to it when `w AND mask = pattern`. -/
abbrev OpcodeRow := Word × Word

/-- The opcode map of R76 as (mask, match), its 34 rows in the order of the table. -/
def opcodeMap : List OpcodeRow :=
  [(0xFFFF#16, 0x00E0#16), (0xFFFF#16, 0x00EE#16), (0xF000#16, 0x1000#16), (0xF000#16, 0x2000#16),
   (0xF000#16, 0x3000#16), (0xF000#16, 0x4000#16), (0xF00F#16, 0x5000#16), (0xF000#16, 0x6000#16),
   (0xF000#16, 0x7000#16)] ++
  [(0xF00F#16, 0x8000#16), (0xF00F#16, 0x8001#16), (0xF00F#16, 0x8002#16), (0xF00F#16, 0x8003#16),
   (0xF00F#16, 0x8004#16), (0xF00F#16, 0x8005#16), (0xF00F#16, 0x8006#16), (0xF00F#16, 0x8007#16),
   (0xF00F#16, 0x800E#16)] ++
  [(0xF00F#16, 0x9000#16), (0xF000#16, 0xA000#16), (0xF000#16, 0xB000#16), (0xF000#16, 0xC000#16),
   (0xF000#16, 0xD000#16), (0xF0FF#16, 0xE09E#16), (0xF0FF#16, 0xE0A1#16)] ++
  [(0xF0FF#16, 0xF007#16), (0xF0FF#16, 0xF00A#16), (0xF0FF#16, 0xF015#16), (0xF0FF#16, 0xF018#16),
   (0xF0FF#16, 0xF01E#16), (0xF0FF#16, 0xF029#16), (0xF0FF#16, 0xF033#16), (0xF0FF#16, 0xF055#16),
   (0xF0FF#16, 0xF065#16)]

/-- The row of R76 an instruction stands for. -/
def opcodeRowOf : Instr → OpcodeRow
  | .cls => (0xFFFF#16, 0x00E0#16)
  | .ret => (0xFFFF#16, 0x00EE#16)
  | .jp _ => (0xF000#16, 0x1000#16)
  | .call _ => (0xF000#16, 0x2000#16)
  | .seVxNn _ _ => (0xF000#16, 0x3000#16)
  | .sneVxNn _ _ => (0xF000#16, 0x4000#16)
  | .seVxVy _ _ => (0xF00F#16, 0x5000#16)
  | .ldVxNn _ _ => (0xF000#16, 0x6000#16)
  | .addVxNn _ _ => (0xF000#16, 0x7000#16)
  | .ldVxVy _ _ => (0xF00F#16, 0x8000#16)
  | .orVxVy _ _ => (0xF00F#16, 0x8001#16)
  | .andVxVy _ _ => (0xF00F#16, 0x8002#16)
  | .xorVxVy _ _ => (0xF00F#16, 0x8003#16)
  | .addVxVy _ _ => (0xF00F#16, 0x8004#16)
  | .subVxVy _ _ => (0xF00F#16, 0x8005#16)
  | .shrVx _ _ => (0xF00F#16, 0x8006#16)
  | .subnVxVy _ _ => (0xF00F#16, 0x8007#16)
  | .shlVx _ _ => (0xF00F#16, 0x800E#16)
  | .sneVxVy _ _ => (0xF00F#16, 0x9000#16)
  | .ldINnn _ => (0xF000#16, 0xA000#16)
  | .jpV0 _ => (0xF000#16, 0xB000#16)
  | .rnd _ _ => (0xF000#16, 0xC000#16)
  | .drw _ _ _ => (0xF000#16, 0xD000#16)
  | .skp _ => (0xF0FF#16, 0xE09E#16)
  | .sknp _ => (0xF0FF#16, 0xE0A1#16)
  | .ldVxDt _ => (0xF0FF#16, 0xF007#16)
  | .ldVxK _ => (0xF0FF#16, 0xF00A#16)
  | .ldDtVx _ => (0xF0FF#16, 0xF015#16)
  | .ldStVx _ => (0xF0FF#16, 0xF018#16)
  | .addIVx _ => (0xF0FF#16, 0xF01E#16)
  | .ldFVx _ => (0xF0FF#16, 0xF029#16)
  | .ldBVx _ => (0xF0FF#16, 0xF033#16)
  | .ldMiVx _ => (0xF0FF#16, 0xF055#16)
  | .ldVxMi _ => (0xF0FF#16, 0xF065#16)

/-- The two bytes of the table word `w` as they lie in memory; bits at and above `nbits` are zero. -/
def tableWordBytes (nbits w : Nat) : List Byte :=
  [BitVec.ofNat 8 (w % 2 ^ nbits / 0x100), BitVec.ofNat 8 (w % 2 ^ nbits)]

/-- The instruction the decoder reads from the table word `w`, laid out as the machine stores it. -/
def decodeTableWord (nbits w : Nat) : Option Instr :=
  match decodeBytes (tableWordBytes nbits w) with
  | .ok (i, _) => some i
  | .error _ => none

end Sys2Proof
end

