-- ==== Sys2Proof/Config.lean ====
section
/-! DEFINITION. What the spec leaves to the implementation or to the environment: constants without a body,
so that nothing proved about the machine rests on a value of theirs, and the fixed parameters of R5. -/

namespace Sys2Proof.Config

/-- `FONT_TABLE` (R5, R39, decision D15): the 80 glyph bytes copied to 0x050 at reset.
No rule of the spec prints them, so they are free.
DESIGN CHOICE (assumption log 1, safe). -/
opaque fontTable : Fin 80 → Byte

/-- `rnd()` (R34, R131, decision D14): the byte the environment hands to the `k`-th Cxnn, under no law.
DESIGN CHOICE (assumption log 2: safe for a claim about one run, unsafe for one that compares two). -/
opaque randomByte : Nat → Byte

/-- `MEM_SIZE` (R5): memory has the addresses 0x000 to 0xFFF. -/
abbrev memSize : Nat := 0x1000

/-- `FONT_BASE` (R5). -/
abbrev fontBase : Nat := 0x050

/-- `FONT_SIZE` (R5): sixteen glyphs of five bytes. -/
abbrev fontSize : Nat := 80

/-- `PROG_BASE` (R5): load address of a program and reset value of `pc`. -/
abbrev progBase : Nat := 0x200

/-- `ROM_MAX` (R5, R234): the longest program image. -/
abbrev romMax : Nat := 3584

/-- `STACK_DEPTH` (R5). -/
abbrev stackDepth : Nat := 16

end Sys2Proof.Config
end

