-- ==== Sys2Proof/Machine/State.lean ====
section
/-! DEFINITION. The machine's state (10_state.md R20 to R40), its faults (60_exceptions.md R201), its refusals, and
the state after reset (R39). -/

namespace Sys2Proof.Machine

/-- Memory as the cells that differ from what an unlisted address reads as (`unlistedByte` in Ops.lean), addresses
strictly rising (R36; the canonical form is `Memory.wf`). -/
abbrev Memory := List Host.Cell

/-- `fb[r][c]`: 32 rows of 64 columns, one bit each, `true` = on (R32, R33; assumption log 9). -/
abbrev Framebuffer := Vector (Vector Bool 64) 32

/-- `key[0..15]`, `true` = pressed (R31). -/
abbrev Keypad := Vector Bool 16

/-- The fatal faults of R201 and what each records (R205): `info` first, then `addr`, the address the faulting
instruction was fetched from, then `word`, the fetched word.
The cause is the constructor.
A fault is the fault outcome of a cycle (R205, D7; assumption log 3); each is safe: the machine stops. -/
inductive Fault where
  /-- Code 1, raised by the fetch of any cycle when `pc > 0xFFE`; `info` and `addr` are `pc`, no word was fetched (R203).
  Safe. -/
  | fetchOutOfBounds (pc : Word)
  /-- Code 2, raised by the decode of any cycle on a word of no pattern; `info` is the word (R202).
  Safe. -/
  | decodeError (addr word : Word)
  /-- Code 3, raised by 2nnn when `sp ≥ 16` (R204).
  Safe. -/
  | stackOverflow (sp : Byte) (addr word : Word)
  /-- Code 4, raised by 00EE when `sp = 0` (R204).
  Safe. -/
  | stackUnderflow (sp : Byte) (addr word : Word)
  /-- Code 5, raised by Dxyn, Fx33, Fx55, Fx65; `info` is the lowest address above 0xFFF the instruction would use (R206).
  Safe. -/
  | memOutOfBounds (lowest : Nat) (addr word : Word)
  /-- Code 6, raised by Dxyn when a set sprite bit would land outside the grid; `info` is its row and column (R207).
  Safe. -/
  | fbOutOfBounds (row col : Nat) (addr word : Word)
  /-- Code 7, raised by Ex9E and ExA1 when `V[x] > 15`; `info` is `V[x]` (R208).
  Safe. -/
  | keyIndexOutOfRange (key : Byte) (addr word : Word)
  deriving DecidableEq, Repr

/-- Why the model gives an instruction no meaning. -/
inductive Refusal where
  /-- Raised by an arm of `exec` that has no meaning yet; no arm is left in that state.
  Safe. -/
  | notModelled (mnemonic : String)
  /-- Raised by 00EE in a state with `sp > 16`, which R28 says never arises and for which the spec names no entry to
  read (assumption log 6).
  Safe. -/
  | stackPointerOutOfRange (sp : Byte)
  deriving DecidableEq, Repr

/-- Every piece of state the spec gives the machine (10_state.md), and `draws`, the model's own. -/
structure State where
  /-- `V[0]` .. `V[15]` (R20). -/
  v : Vector Byte 16
  /-- `I` (R23). -/
  index : Word
  /-- `pc` (R24). -/
  pc : Word
  /-- `stack[0]` .. `stack[15]` (R27). -/
  stack : Vector Word 16
  /-- `sp`, the number of return addresses held (R28). -/
  sp : Byte
  /-- `DT`, the delay timer (R29). -/
  dt : Byte
  /-- `ST`, the sound timer (R30). -/
  st : Byte
  /-- `key[0]` .. `key[15]` (R31). -/
  keys : Keypad
  /-- `fb[0..31][0..63]` (R32). -/
  fb : Framebuffer
  /-- `mem[0x000 .. 0xFFF]` (R36). -/
  mem : Memory
  /-- `ir`, the current opcode (R35). -/
  ir : Word
  /-- The latch `halted` (R37). -/
  halted : Bool
  /-- The record `fault` (R37). -/
  fault : Option Fault
  /-- How many Cxnn have run: selects the next free byte (R34; the model's own, assumption log 2). -/
  draws : Nat
  deriving DecidableEq, Repr

/-- The state after reset with no program loaded (R39, R231; `L = 0` is legal, R233).
Memory lists nothing: an unlisted address reads as its reset value (R235).
`draws` is 0 by DESIGN CHOICE (assumption log 2). -/
def State.reset : State where
  v := Vector.replicate 16 0
  index := 0
  pc := 0x200
  stack := Vector.replicate 16 0
  sp := 0
  dt := 0
  st := 0
  keys := Vector.replicate 16 false
  fb := Vector.replicate 32 (Vector.replicate 64 false)
  mem := []
  ir := 0
  halted := false
  fault := none
  draws := 0

/-- What a step or a meaning answers. -/
abbrev Result := Host.Outcome State Fault Refusal

end Sys2Proof.Machine
end

