-- ==== Sys2Proof/Machine/Ops.lean ====
section
/-! DEFINITION. The named operations over memory, registers, stack, framebuffer, keypad and timers; raising a fault
and entering the halted state; the stages of a cycle that surround execution (00_scope.md R9, 40_cycle.md R90). -/

namespace Sys2Proof.Machine

/-! ### Memory (20_memory.md) -/

/-- What an unlisted address reads as: its value after reset, the font at 0x050 .. 0x09F and 0 elsewhere (R39, R55). -/
def unlistedByte (a : Nat) : Byte :=
  if h : Config.fontBase ≤ a ∧ a < Config.fontBase + Config.fontSize then
    Config.fontTable ⟨a - Config.fontBase, Nat.sub_lt_left_of_lt_add h.1 h.2⟩
  else 0

/-- The byte at address `a` (R36). -/
def Memory.read : Memory → Nat → Byte
  | [], a => unlistedByte a
  | (b, w) :: m, a => if a = b then w else Memory.read m a

/-- Memory with the byte `v` at address `a`, in the canonical form (R56). -/
def Memory.write : Memory → Nat → Byte → Memory
  | [], a, v => if v = unlistedByte a then [] else [(a, v)]
  | (b, w) :: m, a, v =>
    if a < b then (if v = unlistedByte a then (b, w) :: m else (a, v) :: (b, w) :: m)
    else if a = b then (if v = unlistedByte a then m else (a, v) :: m)
    else (b, w) :: Memory.write m a v

/-- Memory with the bytes `bs` at `a`, `a + 1`, … (R52: ascending). -/
def Memory.load (m : Memory) (a : Nat) : List Byte → Memory
  | [] => m
  | b :: bs => Memory.load (m.write a b) (a + 1) bs

/-- The canonical form: addresses strictly rising and inside memory, no cell equal to what an unlisted address reads as. -/
abbrev Memory.wf (m : Memory) : Prop :=
  m.Pairwise (fun c d => c.1 < d.1) ∧ ∀ c ∈ m, c.1 < Config.memSize ∧ c.2 ≠ unlistedByte c.1

/-- An address is inside memory (R55, R56: the bound is 0xFFF). -/
def inMemory (a : Nat) : Bool := decide (a ≤ 0xFFF)

/-- `mem[a]` of a state. -/
def State.byteAt (s : State) (a : Nat) : Byte := s.mem.read a

/-- The state with another memory. -/
def State.setMem (s : State) (m : Memory) : State := { s with mem := m }

/-! ### General registers, I, pc (10_state.md R20 to R26) -/

/-- `V[x]` (R9). -/
def State.readV (s : State) (x : Reg) : Byte := s.v[x.val]

/-- `V[x] <- b` (R9). -/
def State.writeV (s : State) (x : Reg) (b : Byte) : State := { s with v := s.v.set x.val b }

/-- `I <- a` (R23). -/
def State.setIndex (s : State) (a : Word) : State := { s with index := a }

/-- `pc <- a` (R24). -/
def State.setPc (s : State) (a : Word) : State := { s with pc := a }

/-! ### Call stack (R27, R28) -/

/-- `stack[k]`; only `k ≤ 15` names an entry. -/
def State.stackAt (s : State) (k : Nat) : Word := if h : k < 16 then s.stack[k] else 0

/-- `stack[k] <- a` for `k ≤ 15`. -/
def State.setStack (s : State) (k : Nat) (a : Word) : State :=
  { s with stack := if h : k < 16 then s.stack.set k a else s.stack }

/-- `sp <- n`. -/
def State.setSp (s : State) (n : Byte) : State := { s with sp := n }

/-! ### Timers (R29, R30) -/

/-- `DT <- b`. -/
def State.setDt (s : State) (b : Byte) : State := { s with dt := b }

/-- `ST <- b`. -/
def State.setSt (s : State) (b : Byte) : State := { s with st := b }

/-- One timer counts down by one and stops at 0 (R94). -/
def countDown (b : Byte) : Byte := if b = 0 then 0 else b - 1

/-- The timer tick of R94, the last thing in a completed cycle. -/
def State.tick (s : State) : State := { s with dt := countDown s.dt, st := countDown s.st }

/-! ### Keypad (R31) -/

/-- `key[k]`; only `k ≤ 15` names a key. -/
def State.keyAt (s : State) (k : Nat) : Bool := if h : k < 16 then s.keys[k] else false

/-- The least pressed key (R172: "scan keys 0–15 in ascending order"). -/
def State.firstKey (s : State) : Option Nat := (List.range 16).find? fun k => s.keyAt k

/-! ### Framebuffer (R32, R33) -/

/-- `fb[r][c]`; only rows 0 to 31 and columns 0 to 63 name a pixel. -/
def Framebuffer.pixel (f : Framebuffer) (r c : Nat) : Bool :=
  if h : r < 32 ∧ c < 64 then (f[r]'h.1)[c]'h.2 else false

/-- `fb[r][c] <- fb[r][c] XOR 1` (R33). -/
def Framebuffer.toggle (f : Framebuffer) (r c : Nat) : Framebuffer :=
  if h : r < 32 ∧ c < 64 then f.set r ((f[r]'h.1).set c (!(f[r]'h.1)[c]'h.2) h.2) h.1 else f

/-- Every pixel off. -/
def Framebuffer.blank : Framebuffer := Vector.replicate 32 (Vector.replicate 64 false)

/-- `fb[r][c]` of a state. -/
def State.pixelAt (s : State) (r c : Nat) : Bool := Framebuffer.pixel s.fb r c

/-- The state with another framebuffer. -/
def State.setFb (s : State) (f : Framebuffer) : State := { s with fb := f }

/-! ### The random byte (R34) -/

/-- The free byte of the next Cxnn: `rnd()` (R131; assumption log 2). -/
def State.nextRandom (s : State) : Byte := Config.randomByte s.draws

/-- The draw is used up: the next Cxnn takes another free byte (R131: "independent draws"). -/
def State.drawn (s : State) : State := { s with draws := s.draws + 1 }

/-! ### Faults (60_exceptions.md) -/

/-- The cause code of R201. -/
def Fault.code : Fault → Nat
  | .fetchOutOfBounds _ => 1
  | .decodeError _ _ => 2
  | .stackOverflow _ _ _ => 3
  | .stackUnderflow _ _ _ => 4
  | .memOutOfBounds _ _ _ => 5
  | .fbOutOfBounds _ _ _ _ => 6
  | .keyIndexOutOfRange _ _ _ => 7

/-- The `addr` of the record: where the faulting instruction was (to be) fetched from (R201). -/
def Fault.addr : Fault → Word
  | .fetchOutOfBounds pc => pc
  | .decodeError addr _ => addr
  | .stackOverflow _ addr _ => addr
  | .stackUnderflow _ addr _ => addr
  | .memOutOfBounds _ addr _ => addr
  | .fbOutOfBounds _ _ addr _ => addr
  | .keyIndexOutOfRange _ addr _ => addr

/-- The `word` of the record, absent when no word was fetched (R201). -/
def Fault.word : Fault → Option Word
  | .fetchOutOfBounds _ => none
  | .decodeError _ word => some word
  | .stackOverflow _ _ word => some word
  | .stackUnderflow _ _ word => some word
  | .memOutOfBounds _ _ word => some word
  | .fbOutOfBounds _ _ _ word => some word
  | .keyIndexOutOfRange _ _ word => some word

/-- The `info` of the record as a list of numbers: one number, or a row and a column (R201). -/
def Fault.info : Fault → List Nat
  | .fetchOutOfBounds pc => [pc.toNat]
  | .decodeError _ word => [word.toNat]
  | .stackOverflow sp _ _ => [sp.toNat]
  | .stackUnderflow sp _ _ => [sp.toNat]
  | .memOutOfBounds lowest _ _ => [lowest]
  | .fbOutOfBounds row col _ _ => [row, col]
  | .keyIndexOutOfRange key _ _ => [key.toNat]

/-- `raise F(info)` in the execute step (R205): the fault outcome, with `addr` the address of the instruction, which
`pc` has passed by 2 (R91), and `word` the fetched word, which `ir` holds (R35).
Nothing the cycle did survives, so the outcome carries no partial state. -/
def raise (f : Word → Word → Fault) (s : State) : Result := .fault (f (s.pc - 2) s.ir)

/-- Fault entry (R205) on the state of the cycle's start, the restored snapshot: `fault` and `halted` are written and
nothing else changes. -/
def State.enterFault (snapshot : State) (f : Fault) : State :=
  { snapshot with halted := true, fault := some f }

/-! ### Fetch (R91) -/

/-- The fetched word, high byte at the lower address (R51); none when `pc > 0xFFE` (R91). -/
def State.fetchWord (s : State) : Option Word :=
  if s.pc.toNat ≤ 0xFFE then some (wordOf (s.byteAt s.pc.toNat) (s.byteAt (s.pc.toNat + 1))) else none

/-- What the fetch writes: `ir <- w; pc <- pc + 2` (R91). -/
def State.fetched (s : State) (w : Word) : State := { s with ir := w, pc := s.pc + 2 }

/-- The end of a cycle: a completed instruction is followed by the timer tick, a faulting one is not (R90, R94). -/
def endCycle : Result → Result
  | .next t => .next t.tick
  | .fault f => .fault f
  | .refused r => .refused r

end Sys2Proof.Machine
end

