-- ==== Sys2Proof/Machine/Operands.lean ====
section
/-! DEFINITION. Operand forms and effective addresses (30_encoding.md R72; 43_index_memory.md R142, R146; 20_memory.md
R57), the skip (41_control_flow.md R109), register lists (R144, R145), decimal digits (R143) and sprites (R162). -/

namespace Sys2Proof.Machine

/-- `EA = I + k`, an exact natural number (R57, R146). -/
def effectiveAddress (s : State) (k : Nat) : Nat := s.index.toNat + k

/-- The lowest address above 0xFFF of an access that starts at `I` and leaves memory: `max(I, 0x1000)` (R143 to R145). -/
def lowestOutside (s : State) : Nat := max s.index.toNat 0x1000

/-- `zext_16(V[x])` (R72). -/
def State.wideV (s : State) (x : Reg) : Word := (s.readV x).setWidth 16

/-- "skip next instruction": `pc <- pc + 2` on top of the fetch's advance, when the condition holds (R109). -/
def State.skipIf (s : State) (c : Bool) : State := if c then s.setPc (s.pc + 2) else s

/-- The address of the glyph of the value `b`: `0x050 + 5 * b` (R142). -/
def glyphAddress (b : Byte) : Word := BitVec.ofNat 16 (Config.fontBase + 5 * b.toNat)

/-- Registers V0 to Vx, ascending (R144, R145). -/
def regsUpTo (x : Reg) : List Reg := (List.finRange 16).filter fun r => decide (r ≤ x)

/-- `MemWrite(I + i, 1, V[i])` for the registers listed (R144). -/
def storeRegs (s : State) (rs : List Reg) (m : Memory) : Memory :=
  rs.foldl (fun m r => m.write (effectiveAddress s r.val) (s.readV r)) m

/-- `V[i] <- MemRead(I + i, 1)` for the registers listed (R145). -/
def loadRegs (s : State) (rs : List Reg) : State :=
  rs.foldl (fun t r => t.writeV r (s.byteAt (effectiveAddress s r.val))) s

/-- The hundreds, tens and ones of a byte, each a binary number in a whole byte (R143). -/
def decimalDigits (b : Byte) : List Byte :=
  [BitVec.ofNat 8 (b.toNat / 100), BitVec.ofNat 8 (b.toNat / 10 % 10), BitVec.ofNat 8 (b.toNat % 10)]

/-- The sprite's byte of row `r` (R162). -/
def spriteByte (s : State) (r : Nat) : Byte := s.byteAt (effectiveAddress s r)

/-- Column `c` of a sprite byte is bit `7 − c`: the most significant bit is the left column (R162; D16, assumption log 5). -/
def spriteBit (b : Byte) (c : Nat) : Bool := b.getLsbD (7 - c)

/-- `xPos = Vx mod 64` (R161). -/
def spriteColumn (b : Byte) : Nat := b.toNat % 64

/-- `yPos = Vy mod 32` (R161). -/
def spriteRow (b : Byte) : Nat := b.toNat % 32

/-- The first column of a sprite row whose set bit would land outside the grid (R161 pass 1). -/
def firstOutside (b : Byte) (row xPos : Nat) : Option Nat :=
  (List.range 8).find? fun c => spriteBit b c && (decide (xPos + c > 63) || decide (row > 31))

/-- The check of one sprite row (R161 pass 1): its memory address first, then its columns. -/
def rowCheck (s : State) (xPos yPos r : Nat) : Option (Word → Word → Fault) :=
  if inMemory (effectiveAddress s r) then
    (firstOutside (spriteByte s r) (yPos + r) xPos).map fun c => Fault.fbOutOfBounds (yPos + r) (xPos + c)
  else some (Fault.memOutOfBounds (effectiveAddress s r))

/-- R161 pass 1: the first failing check in row-major order. -/
def spriteCheck (s : State) (xPos yPos n : Nat) : Option (Word → Word → Fault) :=
  (List.range n).findSome? fun r => rowCheck s xPos yPos r

/-- One set sprite bit: note a collision, then toggle the pixel (R161 pass 2). -/
def drawPixel (acc : Framebuffer × Bool) (row col : Nat) : Framebuffer × Bool :=
  (Framebuffer.toggle acc.1 row col, acc.2 || Framebuffer.pixel acc.1 row col)

/-- One sprite row, columns 0 to 7 (R161 pass 2). -/
def drawRow (b : Byte) (row xPos : Nat) (acc : Framebuffer × Bool) : Framebuffer × Bool :=
  (List.range 8).foldl (fun acc c => if spriteBit b c then drawPixel acc row (xPos + c) else acc) acc

/-- R161 pass 2: the framebuffer after the drawing, and whether there was a collision (VF starts at 0). -/
def drawSprite (s : State) (xPos yPos n : Nat) : Framebuffer × Bool :=
  (List.range n).foldl (fun acc r => drawRow (spriteByte s r) (yPos + r) xPos acc) (s.fb, false)

end Sys2Proof.Machine
end

