-- ==== Sys2Proof/Machine/Flags.lean ====
section
/-! DEFINITION. The flag VF (10_state.md R21): every flag computation and the two orders in which a result and a flag
are written (42_load_alu.md R132, R133; `VF_ALIAS = table_order`, assumption log 4). -/

namespace Sys2Proof.Machine

/-- A flag is the byte 1 or 0. -/
def flagByte (c : Bool) : Byte := if c then 1 else 0

/-- The carry of 8xy4: the exact sum exceeds 255 (R126). -/
def carryOut (a b : Byte) : Bool := decide (a.toNat + b.toNat > 255)

/-- The flag of a subtraction: the minuend is strictly greater than the subtrahend (R127, R129). -/
def noBorrow (minuend subtrahend : Byte) : Bool := decide (minuend.toNat > subtrahend.toNat)

/-- The bit 8xy6 shifts out: bit 0 (R128). -/
def shiftedOutRight (a : Byte) : Bool := a.getLsbD 0

/-- The bit 8xyE shifts out: bit 7 (R130). -/
def shiftedOutLeft (a : Byte) : Bool := a.getLsbD 7

/-- VF alone. -/
def State.writeFlag (s : State) (c : Bool) : State := s.writeV vF (flagByte c)

/-- 8xy4: result, then flag; the later write stands (R126, R133). -/
def State.writeResultThenFlag (s : State) (x : Reg) (b : Byte) (c : Bool) : State :=
  (s.writeV x b).writeFlag c

/-- 8xy5, 8xy6, 8xy7, 8xyE: flag, then result; the later write stands (R127 to R130, R133). -/
def State.writeFlagThenResult (s : State) (x : Reg) (b : Byte) (c : Bool) : State :=
  (s.writeFlag c).writeV x b

end Sys2Proof.Machine
end

