-- ==== Sys2Proof/Machine/ControlFlow.lean ====
section
/-! DEFINITION. Control transfer (41_control_flow.md R100 to R110). In every meaning `pc` already holds `a + 2` (R91). -/

namespace Sys2Proof.Machine

/-- 00EE (R101): `StackUnderflow` when `sp = 0`; the popped entry keeps its value.
A stack pointer above 16 never arises (R28) and names no entry (assumption log 6). -/
def execRet (s : State) : Result :=
  if s.sp = 0 then raise (Fault.stackUnderflow s.sp) s
  else if s.sp.toNat ≤ Config.stackDepth then
    .next ((s.setSp (s.sp - 1)).setPc (s.stackAt (s.sp.toNat - 1)))
  else .refused (.stackPointerOutOfRange s.sp)

/-- 1nnn (R102). -/
def execJp (nnn : Word) (s : State) : Result := .next (s.setPc nnn)

/-- 2nnn (R103): `StackOverflow` when `sp ≥ 16`; else pushes the advanced `pc`. -/
def execCall (nnn : Word) (s : State) : Result :=
  if s.sp.toNat < Config.stackDepth then
    .next (((s.setStack s.sp.toNat s.pc).setSp (s.sp + 1)).setPc nnn)
  else raise (Fault.stackOverflow s.sp) s

/-- 3xnn (R104). -/
def execSeVxNn (x : Reg) (nn : Byte) (s : State) : Result := .next (s.skipIf (decide (s.readV x = nn)))

/-- 4xnn (R105). -/
def execSneVxNn (x : Reg) (nn : Byte) (s : State) : Result := .next (s.skipIf (decide (s.readV x ≠ nn)))

/-- 5xy0 (R106). -/
def execSeVxVy (x y : Reg) (s : State) : Result := .next (s.skipIf (decide (s.readV x = s.readV y)))

/-- 9xy0 (R107). -/
def execSneVxVy (x y : Reg) (s : State) : Result := .next (s.skipIf (decide (s.readV x ≠ s.readV y)))

/-- Bnnn (R108): the offset register is always V0; the sum is not reduced. -/
def execJpV0 (nnn : Word) (s : State) : Result := .next (s.setPc (s.wideV v0 + nnn))

end Sys2Proof.Machine
end

