-- ==== Sys2Proof/Machine/Display.lean ====
section
/-! DEFINITION. The display instructions (44_display.md R160 to R162). -/

namespace Sys2Proof.Machine

/-- 00E0 (R160): every pixel off, no flag. -/
def execCls (s : State) : Result := .next (s.setFb Framebuffer.blank)

/-- Dxyn (R161): every check in row-major order, then the drawing and VF. -/
def execDrw (x y : Reg) (n : Nat) (s : State) : Result :=
  match spriteCheck s (spriteColumn (s.readV x)) (spriteRow (s.readV y)) n with
  | some f => raise f s
  | none =>
    .next ((s.setFb (drawSprite s (spriteColumn (s.readV x)) (spriteRow (s.readV y)) n).1).writeFlag
      (drawSprite s (spriteColumn (s.readV x)) (spriteRow (s.readV y)) n).2)

end Sys2Proof.Machine
end

