-- ==== Sys2Proof/Machine/IndexMemory.lean ====
section
/-! DEFINITION. Index register and memory instructions (43_index_memory.md R140 to R146). None changes `I` as part of an
access; every address is checked before the first write (00_scope.md R12). -/

namespace Sys2Proof.Machine

/-- Annn (R140). -/
def execLdINnn (nnn : Word) (s : State) : Result := .next (s.setIndex nnn)

/-- Fx1E (R141): modulo 2^16, no flag. -/
def execAddIVx (x : Reg) (s : State) : Result := .next (s.setIndex (s.index + s.wideV x))

/-- Fx29 (R142): the whole byte, no mask. -/
def execLdFVx (x : Reg) (s : State) : Result := .next (s.setIndex (glyphAddress (s.readV x)))

/-- Fx33 (R143). -/
def execLdBVx (x : Reg) (s : State) : Result :=
  if inMemory (effectiveAddress s 2) then
    .next (s.setMem (Memory.load s.mem (effectiveAddress s 0) (decimalDigits (s.readV x))))
  else raise (Fault.memOutOfBounds (lowestOutside s)) s

/-- Fx55 (R144). -/
def execLdMiVx (x : Reg) (s : State) : Result :=
  if inMemory (effectiveAddress s x.val) then .next (s.setMem (storeRegs s (regsUpTo x) s.mem))
  else raise (Fault.memOutOfBounds (lowestOutside s)) s

/-- Fx65 (R145). -/
def execLdVxMi (x : Reg) (s : State) : Result :=
  if inMemory (effectiveAddress s x.val) then .next (loadRegs s (regsUpTo x))
  else raise (Fault.memOutOfBounds (lowestOutside s)) s

end Sys2Proof.Machine
end

