-- ==== Sys2Proof/Machine/KeypadTimers.lean ====
section
/-! DEFINITION. Keypad and timer instructions (45_keypad_timers.md R170 to R176). -/

namespace Sys2Proof.Machine

/-- A skip on the state of key `V[x]` (R170, R171): the index is not masked, above 15 it is `KeyIndexOutOfRange`. -/
def skipOnKey (x : Reg) (pressed : Bool) (s : State) : Result :=
  if (s.readV x).toNat ≤ 15 then .next (s.skipIf (s.keyAt (s.readV x).toNat == pressed))
  else raise (Fault.keyIndexOutOfRange (s.readV x)) s

/-- Ex9E (R170). -/
def execSkp (x : Reg) (s : State) : Result := skipOnKey x true s

/-- ExA1 (R171). -/
def execSknp (x : Reg) (s : State) : Result := skipOnKey x false s

/-- Fx07 (R173). -/
def execLdVxDt (x : Reg) (s : State) : Result := .next (s.writeV x s.dt)

/-- Fx0A (R172): the least pressed key, or back to this instruction. -/
def execLdVxK (x : Reg) (s : State) : Result :=
  match s.firstKey with
  | some k => .next (s.writeV x (BitVec.ofNat 8 k))
  | none => .next (s.setPc (s.pc - 2))

/-- Fx15 (R174). -/
def execLdDtVx (x : Reg) (s : State) : Result := .next (s.setDt (s.readV x))

/-- Fx18 (R175). -/
def execLdStVx (x : Reg) (s : State) : Result := .next (s.setSt (s.readV x))

end Sys2Proof.Machine
end

