-- ==== Sys2Proof/Machine/LoadAlu.lean ====
section
/-! DEFINITION. Register load, arithmetic, logic and the random byte (42_load_alu.md R120 to R133). -/

namespace Sys2Proof.Machine

/-- 6xnn (R120). -/
def execLdVxNn (x : Reg) (nn : Byte) (s : State) : Result := .next (s.writeV x nn)

/-- 7xnn (R121): modulo 256, no flag. -/
def execAddVxNn (x : Reg) (nn : Byte) (s : State) : Result := .next (s.writeV x (s.readV x + nn))

/-- 8xy0 (R122). -/
def execLdVxVy (x y : Reg) (s : State) : Result := .next (s.writeV x (s.readV y))

/-- 8xy1 (R123): no flag. -/
def execOrVxVy (x y : Reg) (s : State) : Result := .next (s.writeV x (s.readV x ||| s.readV y))

/-- 8xy2 (R124): no flag. -/
def execAndVxVy (x y : Reg) (s : State) : Result := .next (s.writeV x (s.readV x &&& s.readV y))

/-- 8xy3 (R125): no flag. -/
def execXorVxVy (x y : Reg) (s : State) : Result := .next (s.writeV x (s.readV x ^^^ s.readV y))

/-- 8xy4 (R126): the sum modulo 256, then VF = carry. -/
def execAddVxVy (x y : Reg) (s : State) : Result :=
  .next (s.writeResultThenFlag x (s.readV x + s.readV y) (carryOut (s.readV x) (s.readV y)))

/-- 8xy5 (R127): VF = 1 when Vx > Vy, then the difference modulo 256. -/
def execSubVxVy (x y : Reg) (s : State) : Result :=
  .next (s.writeFlagThenResult x (s.readV x - s.readV y) (noBorrow (s.readV x) (s.readV y)))

/-- 8xy6 (R128): VF = bit 0 of Vx, then Vx shifted right; `y` is ignored. -/
def execShrVx (x _y : Reg) (s : State) : Result :=
  .next (s.writeFlagThenResult x (s.readV x >>> 1) (shiftedOutRight (s.readV x)))

/-- 8xy7 (R129): VF = 1 when Vy > Vx, then `Vy − Vx` modulo 256. -/
def execSubnVxVy (x y : Reg) (s : State) : Result :=
  .next (s.writeFlagThenResult x (s.readV y - s.readV x) (noBorrow (s.readV y) (s.readV x)))

/-- 8xyE (R130): VF = bit 7 of Vx, then Vx shifted left; `y` is ignored. -/
def execShlVx (x _y : Reg) (s : State) : Result :=
  .next (s.writeFlagThenResult x (s.readV x <<< 1) (shiftedOutLeft (s.readV x)))

/-- Cxnn with the environment's byte `b` (R131): `Vx <- b AND nn`, and the draw is used up. -/
def rndWith (b : Byte) (x : Reg) (nn : Byte) (s : State) : Result := .next (s.drawn.writeV x (b &&& nn))

/-- Cxnn (R131): the byte is the free one of this draw (assumption log 2). -/
def execRnd (x : Reg) (nn : Byte) (s : State) : Result := rndWith s.nextRandom x nn s

end Sys2Proof.Machine
end

