-- ==== Sys2Proof/Machine/Step.lean ====
section
/-! DEFINITION. One cycle of the core (40_cycle.md R90, R95; 60_exceptions.md R205), and how an instruction is placed
where the next cycle fetches it. -/

namespace Sys2Proof.Machine

/-- Decode and execute of R90, on the fetched word; a fault of either is the cycle's (R209: decode before execute). -/
def runWord (s : State) (w : Word) : Result :=
  match decode w with
  | .ok i => endCycle (exec i (s.fetched w))
  | .error _ => .fault (.decodeError s.pc w)

/-- `Cycle` of R90: a halted core does nothing (R95); else fetch, decode, execute, timer tick, the first fault of these
ending the cycle (R209).
The fault outcome carries the record (R205); `cycle` gives the machine it leaves. -/
def step (s : State) : Host.Outcome State Fault Refusal :=
  if s.halted then .next s
  else
    match s.fetchWord with
    | none => .fault (.fetchOutOfBounds s.pc)
    | some w => runWord s w

/-- The machine after one `cycle` event: the next state, or on a fault the state of the cycle's start with `fault` and
`halted` written (R205).
A refused cycle leaves the machine where it was (assumption log 6). -/
def cycle (s : State) : State :=
  match step s with
  | .next t => t
  | .fault f => s.enterFault f
  | .refused _ => s

/-- `s` with the table word `w` stored where the next cycle fetches (R51, R91), able to fetch: not halted (R95).
`pc` is kept; above 0xFFE nothing can be fetched (R91) and nothing is stored (assumption log 8). -/
def State.withFetchWord (s : State) (nbits w : Nat) : State :=
  if s.pc.toNat ≤ 0xFFE then
    { s with mem := Memory.load s.mem s.pc.toNat (tableWordBytes nbits w), halted := false, fault := none }
  else s

end Sys2Proof.Machine
end

