-- ==== Sys2Proof/Machine/HostInterface.lean ====
section
/-! DEFINITION. What the host does between cycles (00_scope.md R7; 40_cycle.md R96, R97; 70_reset_and_hazards.md R230 to
R237) and a run of both agents as a list of events. -/

namespace Sys2Proof.Machine

/-- Why the loader rejects a program image (R212, R234). -/
inductive LoadError where
  /-- The image has more than 3584 bytes. -/
  | tooLong (length : Nat)
  deriving DecidableEq, Repr

/-- `Reset(ROM)` of R231: the reset state with the image at 0x200 (R233), or LoadError and no core state (R234). -/
def State.resetWith (rom : List Byte) : Except LoadError State :=
  if rom.length ≤ Config.romMax then
    .ok (State.reset.setMem (Memory.load State.reset.mem Config.progBase rom))
  else .error (.tooLong rom.length)

/-- The host writes the key states (R96). -/
def State.setKeys (s : State) (k : Keypad) : State := { s with keys := k }

/-- What the display sink reads (R96). -/
def State.display (s : State) : Framebuffer := s.fb

/-- The diagnostic surface: V0 to VF, `ir`, `pc` (R217). -/
def State.diagnostic (s : State) : Vector Byte 16 × Word × Word := (s.v, s.ir, s.pc)

/-- Everything the host can do to a core (R96); it writes no other state. -/
inductive HostEvent where
  /-- Push the input device's state into the keypad array. -/
  | keys (k : Keypad)
  /-- Invoke one cycle. -/
  | cycle
  /-- Reset with a program image, from a running or a halted core (R237). -/
  | reset (rom : List Byte)
  deriving DecidableEq, Repr

/-- Reset of a core that has run (R237).
The count of draws goes on, so that no draw of the new run is tied to one of the old (R131; assumption log 2).
A rejected image leaves the core as it was (R212: "core performs no partial load"; assumption log 12). -/
def State.resetFrom (s : State) (rom : List Byte) : State :=
  match State.resetWith rom with
  | .ok t => { t with draws := s.draws }
  | .error _ => s

/-- One event. -/
def State.onEvent (s : State) : HostEvent → State
  | .keys k => s.setKeys k
  | .cycle => cycle s
  | .reset rom => s.resetFrom rom

/-- A run: the events the host issues, in order (R6: the two agents never act at the same time). -/
def State.onEvents (s : State) (es : List HostEvent) : State := es.foldl State.onEvent s

end Sys2Proof.Machine
end

