-- ==== Sys2Proof/Safety.lean ====
section
/-! DEFINITION. What counts as a legal state and a safe run, in the terms claims use. -/

namespace Sys2Proof.Machine

/-- The facts the spec promises of every state a run reaches: `sp` never exceeds 16 (10_state.md R28); every stack entry
is a return address, at most 0x1000 (R26, R27); `pc` is at most 0x10FE (R26); memory is in its canonical form, inside the
4096 bytes (R36); `halted` and `fault` go together (R37). -/
structure State.Legal (s : State) : Prop where
  sp_le : s.sp.toNat ≤ 16
  stack_le : ∀ k, (s.stackAt k).toNat ≤ 0x1000
  pc_le : s.pc.toNat ≤ 0x10FE
  mem_wf : s.mem.wf
  fault_iff : s.halted = s.fault.isSome

/-- `k` cycles complete without a fault (R97: a run ends when a cycle faults). -/
def State.FaultFreeFor (k : Nat) (s : State) : Prop := ∃ t, Host.Core.run
  { State := State, Fault := Fault, Refusal := Refusal, step := step, reset := State.reset } k s = .next t

/-- The conventional end of a program (40_cycle.md R97, D20): a jump to itself with both timers at 0. -/
def State.Finished (s : State) : Prop :=
  s.halted = false ∧ s.fetchWord = some (BitVec.ofNat 16 (0x1000 + s.pc.toNat)) ∧ s.pc.toNat ≤ 0xFFE ∧
    s.dt = 0 ∧ s.st = 0

end Sys2Proof.Machine
end

