-- ==== Sys2Proof/Certificates/Slice0/Obligations.lean ====
section
/-! DEFINITION. The statements about the machine, taken from the numbered rules of spec/ file by file.
The definitions under `Sys2Proof.Claims` say, independently of the meanings, what an instruction may change and where
the program counter goes; the statements are the `Obligations.<Name>`. -/

namespace Sys2Proof.Claims

open Sys2Proof.Machine

/-- The parts of the state beside the general registers. -/
inductive Part where
  | index | pc | stack | sp | dt | st | keys | fb | mem | ir | latch | draws
  deriving DecidableEq, Repr

/-- The frame: from `s` to `t`, registers outside `ds` and parts outside `ps` are unchanged; memory is compared byte
by byte, the framebuffer pixel by pixel. -/
structure ChangesOnly (ds : List Reg) (ps : List Part) (s t : State) : Prop where
  regs : ∀ r, r ∉ ds → t.readV r = s.readV r
  index : Part.index ∉ ps → t.index = s.index
  pc : Part.pc ∉ ps → t.pc = s.pc
  stack : Part.stack ∉ ps → ∀ k, t.stackAt k = s.stackAt k
  sp : Part.sp ∉ ps → t.sp = s.sp
  dt : Part.dt ∉ ps → t.dt = s.dt
  st : Part.st ∉ ps → t.st = s.st
  keys : Part.keys ∉ ps → ∀ k, t.keyAt k = s.keyAt k
  fb : Part.fb ∉ ps → ∀ r c, t.pixelAt r c = s.pixelAt r c
  mem : Part.mem ∉ ps → ∀ a, t.byteAt a = s.byteAt a
  ir : Part.ir ∉ ps → t.ir = s.ir
  latch : Part.latch ∉ ps → t.halted = s.halted ∧ t.fault = s.fault
  draws : Part.draws ∉ ps → t.draws = s.draws

/-- The word of format A with group bits `m` (R71). -/
def patternA (m : Nat) (nnn : Word) : Word := BitVec.ofNat 16 (m + nnn.toNat)

/-- The word of format XK (R71). -/
def patternXK (m : Nat) (x : Reg) (nn : Byte) : Word := BitVec.ofNat 16 (m + 0x100 * x.val + nn.toNat)

/-- The word of format XY (function code in `m`) or XYN (R71). -/
def patternXYN (m : Nat) (x y : Reg) (n : Nat) : Word := BitVec.ofNat 16 (m + 0x100 * x.val + 0x10 * y.val + n)

/-- The word of format XF (R71). -/
def patternXF (m : Nat) (x : Reg) : Word := BitVec.ofNat 16 (m + 0x100 * x.val)

/-- `exec i` completes on `s` in a state `t` with `effect t`, changing only the registers `ds` and the parts `ps`. -/
def Completes (i : Instr) (s : State) (ds : List Reg) (ps : List Part) (effect : State → Prop) : Prop :=
  ∃ t, exec i s = .next t ∧ effect t ∧ ChangesOnly ds ps s t

/-- A flag-writing instruction completes with `result` in Vx and `flag` in VF (10_state.md R21); when `x` is VF itself
the later write `last` stands (R133). -/
def CompletesWithFlag (i : Instr) (s : State) (x : Reg) (result : Byte) (flag : Bool) (last : Byte) : Prop :=
  Completes i s [x, vF] [] fun t =>
    (x ≠ vF → t.readV x = result ∧ t.readV vF = if flag then 1 else 0) ∧ (x = vF → t.readV vF = last)

/-- The execute step stops with the fault `f` of R201, its record holding the instruction's address and word. -/
def Faults (i : Instr) (s : State) (f : Word → Word → Fault) : Prop := exec i s = .fault (f (s.pc - 2) s.ir)

/-- The cycle of `s` fetches and decodes the instruction `i`: not halted, both bytes in memory (R90 to R92). -/
def Fetches (s : State) (w : Word) (i : Instr) : Prop :=
  s.halted = false ∧ s.pc.toNat ≤ 0xFFE ∧ w = wordOf (s.byteAt s.pc.toNat) (s.byteAt (s.pc.toNat + 1)) ∧
    decode w = .ok i

/-- 10_state.md R25: `pc` after the cycle of the instruction `i` fetched in the state `s`. -/
def pcAfter (s : State) : Instr → Word
  | .ret => s.stackAt (s.sp.toNat - 1)
  | .jp nnn | .call nnn => nnn
  | .jpV0 nnn => BitVec.ofNat 16 ((s.readV v0).toNat + nnn.toNat)
  | .seVxNn x nn => if s.readV x = nn then s.pc + 4 else s.pc + 2
  | .sneVxNn x nn => if s.readV x = nn then s.pc + 2 else s.pc + 4
  | .seVxVy x y => if s.readV x = s.readV y then s.pc + 4 else s.pc + 2
  | .sneVxVy x y => if s.readV x = s.readV y then s.pc + 2 else s.pc + 4
  | .skp x => if s.keyAt (s.readV x).toNat then s.pc + 4 else s.pc + 2
  | .sknp x => if s.keyAt (s.readV x).toNat then s.pc + 2 else s.pc + 4
  | .ldVxK _ => if (List.range 16).any s.keyAt then s.pc + 2 else s.pc
  | .cls | .ldVxNn _ _ | .addVxNn _ _ | .ldVxVy _ _ | .orVxVy _ _ | .andVxVy _ _ | .xorVxVy _ _ | .addVxVy _ _
  | .subVxVy _ _ | .shrVx _ _ | .subnVxVy _ _ | .shlVx _ _ | .ldINnn _ | .rnd _ _ | .drw _ _ _ | .ldVxDt _
  | .ldDtVx _ | .ldStVx _ | .addIVx _ | .ldFVx _ | .ldBVx _ | .ldMiVx _ | .ldVxMi _ => s.pc + 2

/-- 10_state.md R22: does the instruction write general register `r`, as destination or as flag? -/
def writesReg (r : Reg) : Instr → Bool
  | .ldVxNn x _ | .addVxNn x _ | .rnd x _ | .ldVxDt x | .ldVxK x => decide (r = x)
  | .ldVxVy x _ | .orVxVy x _ | .andVxVy x _ | .xorVxVy x _ => decide (r = x)
  | .addVxVy x _ | .subVxVy x _ | .shrVx x _ | .subnVxVy x _ | .shlVx x _ => decide (r = x ∨ r = vF)
  | .drw _ _ _ => decide (r = vF)
  | .ldVxMi x => decide (r ≤ x)
  | .cls | .ret | .jp _ | .call _ | .seVxNn _ _ | .sneVxNn _ _ | .seVxVy _ _ | .sneVxVy _ _ | .ldINnn _ | .jpV0 _
  | .skp _ | .sknp _ | .ldDtVx _ | .ldStVx _ | .addIVx _ | .ldFVx _ | .ldBVx _ | .ldMiVx _ => false

/-- Which parts an instruction writes in its execute step: `I` (R23), stack and `sp` (R27, R28), the timers (R29,
R30), the framebuffer (R32), memory (R36), the count of draws (R34); `pc` and the general registers are not listed
here. -/
def writesPart : Instr → List Part
  | .ldINnn _ | .addIVx _ | .ldFVx _ => [.index]
  | .ret => [.sp]
  | .call _ => [.stack, .sp]
  | .ldDtVx _ => [.dt]
  | .ldStVx _ => [.st]
  | .cls | .drw _ _ _ => [.fb]
  | .ldBVx _ | .ldMiVx _ => [.mem]
  | .rnd _ _ => [.draws]
  | .jp _ | .seVxNn _ _ | .sneVxNn _ _ | .seVxVy _ _ | .ldVxNn _ _ | .addVxNn _ _ | .ldVxVy _ _ | .orVxVy _ _
  | .andVxVy _ _ | .xorVxVy _ _ | .addVxVy _ _ | .subVxVy _ _ | .shrVx _ _ | .subnVxVy _ _ | .shlVx _ _
  | .sneVxVy _ _ | .jpV0 _ | .skp _ | .sknp _ | .ldVxDt _ | .ldVxK _ | .ldVxMi _ => []

/-- 60_exceptions.md R201: the cause codes an instruction's execute step can raise. -/
def faultCodes : Instr → List Nat
  | .call _ => [3]
  | .ret => [4]
  | .ldBVx _ | .ldMiVx _ | .ldVxMi _ => [5]
  | .drw _ _ _ => [5, 6]
  | .skp _ | .sknp _ => [7]
  | .cls | .jp _ | .seVxNn _ _ | .sneVxNn _ _ | .seVxVy _ _ | .ldVxNn _ _ | .addVxNn _ _ | .ldVxVy _ _
  | .orVxVy _ _ | .andVxVy _ _ | .xorVxVy _ _ | .addVxVy _ _ | .subVxVy _ _ | .shrVx _ _ | .subnVxVy _ _
  | .shlVx _ _ | .sneVxVy _ _ | .ldINnn _ | .jpV0 _ | .rnd _ _ | .ldVxDt _ | .ldVxK _ | .ldDtVx _ | .ldStVx _
  | .addIVx _ | .ldFVx _ => []

/-- The instructions that read the keypad (10_state.md R31). -/
def readsKeys : Instr → Bool
  | .skp _ | .sknp _ | .ldVxK _ => true
  | .cls | .ret | .jp _ | .call _ | .seVxNn _ _ | .sneVxNn _ _ | .seVxVy _ _ | .ldVxNn _ _ | .addVxNn _ _
  | .ldVxVy _ _ | .orVxVy _ _ | .andVxVy _ _ | .xorVxVy _ _ | .addVxVy _ _ | .subVxVy _ _ | .shrVx _ _
  | .subnVxVy _ _ | .shlVx _ _ | .sneVxVy _ _ | .ldINnn _ | .jpV0 _ | .rnd _ _ | .drw _ _ _ | .ldVxDt _ | .ldDtVx _
  | .ldStVx _ | .addIVx _ | .ldFVx _ | .ldBVx _ | .ldMiVx _ | .ldVxMi _ => false

/-- The same change applied to the next state of an outcome. -/
def onNext (f : State → State) : Result → Result
  | .next t => .next (f t)
  | .fault e => .fault e
  | .refused e => .refused e

/-- Sprite pixel (r, c) of the sprite at `I` is set: bit `7 − c` of `mem[I + r]` (R162). -/
def spriteSet (s : State) (r c : Nat) : Bool := (s.byteAt (effectiveAddress s r)).getLsbD (7 - c)

/-- Framebuffer pixel (row, col) lies under a set bit of the `n`-row sprite whose origin is (`yPos`, `xPos`)
(R162). -/
def coveredBySet (s : State) (xPos yPos n row col : Nat) : Prop :=
  ∃ r c, r < n ∧ c < 8 ∧ row = yPos + r ∧ col = xPos + c ∧ spriteSet s r c = true

/-- R161 pass 1 finds nothing in row `r`: its byte is in memory and its set bits before column `k` are on the grid. -/
def rowPasses (s : State) (xPos yPos r k : Nat) : Prop :=
  effectiveAddress s r ≤ 0xFFF ∧ ∀ c, c < k → spriteSet s r c = true → xPos + c ≤ 63 ∧ yPos + r ≤ 31

/-- R161 pass 1 finds nothing in any of the `n` rows. -/
def spritePasses (s : State) (xPos yPos n : Nat) : Prop := ∀ r, r < n → rowPasses s xPos yPos r 8

/-- A memory instruction's fault record: the lowest address above 0xFFF from `I` on (R206). -/
def MemFault (i : Instr) (s : State) : Prop := Faults i s (Fault.memOutOfBounds (max s.index.toNat 0x1000))

/-- Byte `a` of memory after a completed Fx55 (R144): register `a − I` in the stored range, else as before. -/
def byteAfterRegisters (s : State) (x : Reg) (a : Nat) : Byte :=
  if h : s.index.toNat ≤ a ∧ a ≤ s.index.toNat + x.val then s.readV ⟨a - s.index.toNat, by omega⟩ else s.byteAt a

/-- Byte `a` of memory after a completed Fx33 (R143): a digit of Vx at `I`, `I + 1`, `I + 2`, else as before. -/
def byteAfterDigits (s : State) (x : Reg) (a : Nat) : Byte :=
  if a = s.index.toNat then BitVec.ofNat 8 ((s.readV x).toNat / 100)
  else if a = s.index.toNat + 1 then BitVec.ofNat 8 ((s.readV x).toNat / 10 % 10)
  else if a = s.index.toNat + 2 then BitVec.ofNat 8 ((s.readV x).toNat % 10)
  else s.byteAt a

end Sys2Proof.Claims

open Sys2Proof Sys2Proof.Machine Sys2Proof.Claims

/-! ### Encoding (30_encoding.md) -/

/-- Words written out bit by bit from R71 and R76, one or two of each family, decode to the instructions they stand
for. -/
def Obligations.DecodeReadsTheTableWords : Prop :=
  decode 0b0000_0000_1110_0000#16 = .ok .cls ∧
  decode 0b0010_0010_0000_1010#16 = .ok (.call 0x20A) ∧
  decode 0b0101_0001_0010_0000#16 = .ok (.seVxVy 1 2) ∧
  decode 0b1000_0001_0010_0101#16 = .ok (.subVxVy 1 2) ∧
  decode 0b1100_0011_0000_1111#16 = .ok (.rnd 3 0x0F) ∧
  decode 0b1101_0000_0001_0011#16 = .ok (.drw 0 1 3) ∧
  decode 0b1110_0010_1010_0001#16 = .ok (.sknp 2) ∧
  decode 0b1111_0011_0101_0101#16 = .ok (.ldMiVx 3)

/-- Decoding the word of any well-formed instruction gives the instruction back: no bit of an encoding is dropped. -/
def Obligations.DecodeOfEncodeIsTheInstruction : Prop :=
  ∀ i : Instr, i.wellFormed = true → decode (encode i) = .ok i

/-- A word that decodes does so to a well-formed instruction whose word it is: each word has one meaning. -/
def Obligations.EncodeOfDecodeIsTheWord : Prop :=
  ∀ (w : Word) (i : Instr), decode w = .ok i → i.wellFormed = true ∧ encode i = w

/-- R75 (the spec's decision D6: every fixed nibble counts; assumption log 16): a word is an instruction exactly when
it matches a row of R76 in every fixed nibble, and then it is an instruction of that row; any other word is rejected
by name. -/
def Obligations.WordIsLegalExactlyWhenItMatchesARow : Prop :=
  ∀ w : Word,
    ((∃ i, decode w = .ok i) ↔ ∃ row ∈ opcodeMap, w &&& row.1 = row.2) ∧
    (∀ i, decode w = .ok i → opcodeRowOf i ∈ opcodeMap ∧ w &&& (opcodeRowOf i).1 = (opcodeRowOf i).2) ∧
    ((∀ row ∈ opcodeMap, w &&& row.1 ≠ row.2) → decode w = .error (.noPattern w))

/-- R75: "The 34 patterns are pairwise disjoint (no word matches two)". -/
def Obligations.OpcodePatternsArePairwiseDisjoint : Prop :=
  opcodeMap.length = 34 ∧
    opcodeMap.Pairwise fun p q => ∀ w : Word, ¬(w &&& p.1 = p.2 ∧ w &&& q.1 = q.2)

/-- R77 (with decision D6, assumption log 16): the illegal words are those of its six groups. -/
def Obligations.IllegalWordsAreTheSixGroups : Prop :=
  ∀ w : Word, decode w = .error (.noPattern w) ↔
    (w.toNat / 0x1000 = 0x0 ∧ w ≠ 0x00E0 ∧ w ≠ 0x00EE) ∨
    (w.toNat / 0x1000 = 0x5 ∧ w.toNat % 0x10 ≠ 0) ∨
    (w.toNat / 0x1000 = 0x8 ∧ w.toNat % 0x10 ∈ [0x8, 0x9, 0xA, 0xB, 0xC, 0xD, 0xF]) ∨
    (w.toNat / 0x1000 = 0x9 ∧ w.toNat % 0x10 ≠ 0) ∨
    (w.toNat / 0x1000 = 0xE ∧ w.toNat % 0x100 ∉ [0x9E, 0xA1]) ∨
    (w.toNat / 0x1000 = 0xF ∧ w.toNat % 0x100 ∉ [0x07, 0x0A, 0x15, 0x18, 0x1E, 0x29, 0x33, 0x55, 0x65])

/-! ### The cycle (40_cycle.md, 60_exceptions.md) -/

/-- R90, R91, R93: the cycle that fetches `i` is the execute step of `i` on the state with `ir` loaded and `pc`
advanced, followed, when it completes, by the tick of both timers. -/
def Obligations.StepRunsTheDecodedInstruction : Prop :=
  ∀ (s : State) (w : Word) (i : Instr), Fetches s w i →
    step s = match exec i { s with ir := w, pc := s.pc + 2 } with
      | .next u => .next { u with dt := if u.dt.toNat > 0 then u.dt - 1 else u.dt,
                                  st := if u.st.toNat > 0 then u.st - 1 else u.st }
      | .fault f => .fault f
      | .refused r => .refused r

/-- R91, R203 (the spec's decision D9; assumption log 17): a fetch with `pc > 0xFFE` is FetchOutOfBounds(pc), whatever
memory holds. -/
def Obligations.FetchBeyondMemoryFaults : Prop :=
  ∀ s : State, s.halted = false → s.pc.toNat > 0xFFE →
    step s = .fault (.fetchOutOfBounds s.pc) ∧ (Fault.fetchOutOfBounds s.pc).code = 1

/-- R202 (no pattern by decision D6, assumption log 16): a fetched word of no pattern is DecodeError before anything
of it executes, and the word is recorded. -/
def Obligations.WordOfNoPatternIsADecodeError : Prop :=
  ∀ s : State, s.halted = false → s.pc.toNat ≤ 0xFFE →
    (∀ row ∈ opcodeMap, wordOf (s.byteAt s.pc.toNat) (s.byteAt (s.pc.toNat + 1)) &&& row.1 ≠ row.2) →
    ∃ f, step s = .fault f ∧ f.code = 2 ∧ f.addr = s.pc ∧
      f.word = some (wordOf (s.byteAt s.pc.toNat) (s.byteAt (s.pc.toNat + 1))) ∧
      f.info = [(wordOf (s.byteAt s.pc.toNat) (s.byteAt (s.pc.toNat + 1))).toNat]

/-- R95 (the spec's decision D7; assumption log 3): a cycle of a halted core changes nothing; no sequence of cycles
and key writes wakes it or changes anything but the keys; a reset with an image that fits clears `halted` and
`fault`. -/
def Obligations.HaltedCoreDoesNothingUntilReset : Prop :=
  ∀ s : State, s.halted = true →
    step s = .next s ∧ cycle s = s ∧
    (∀ es : List HostEvent, (∀ rom, HostEvent.reset rom ∉ es) →
      (s.onEvents es).halted = true ∧ ChangesOnly [] [.keys] s (s.onEvents es)) ∧
    ∀ rom : List Byte, rom.length ≤ 3584 →
      (s.onEvent (.reset rom)).halted = false ∧ (s.onEvent (.reset rom)).fault = none

/-- R205 (the spec's decision D7; assumption log 3): a faulting cycle leaves the state of the cycle's start with
`halted` and `fault` written, the record naming the instruction's address and the fetched word, and no timer tick; a
further cycle changes nothing. -/
def Obligations.FaultFreezesTheStateOfTheCyclesStart : Prop :=
  ∀ (s : State) (f : Fault), step s = .fault f →
    (cycle s).halted = true ∧ (cycle s).fault = some f ∧ f.addr = s.pc ∧ f.word = s.fetchWord ∧
      ChangesOnly [] [.latch] s (cycle s) ∧ cycle (cycle s) = cycle s

/-- R94: the tick ends every completed cycle, sees what the execute step wrote, counts each timer down by one
independently of the other, stops at 0, and touches nothing else; a faulting cycle and a cycle of a halted core have
no tick (the last two by decision D7, assumption log 3). -/
def Obligations.TimersTickOncePerCompletedCycle : Prop :=
  (∀ (s u : State) (w : Word) (i : Instr), Fetches s w i → exec i (s.fetched w) = .next u →
    ∃ t, step s = .next t ∧ t.dt.toNat = u.dt.toNat - 1 ∧ t.st.toNat = u.st.toNat - 1 ∧
      ChangesOnly [] [.dt, .st] u t) ∧
  (∀ (s : State) (f : Fault), step s = .fault f → (cycle s).dt = s.dt ∧ (cycle s).st = s.st) ∧
  ∀ s : State, s.halted = true → (cycle s).dt = s.dt ∧ (cycle s).st = s.st

/-- R25: `pc` after the cycle of every instruction, and its being unchanged by a faulting cycle (decision D7,
assumption log 3); 2nnn pushes `a + 2`. -/
def Obligations.PcAfterTheCycle : Prop :=
  (∀ (s t : State) (w : Word) (i : Instr), Fetches s w i → step s = .next t → t.pc = pcAfter s i) ∧
  (∀ (s t : State) (w : Word) (nnn : Word), Fetches s w (.call nnn) → step s = .next t →
    t.stackAt s.sp.toNat = s.pc + 2) ∧
  ∀ (s : State) (f : Fault), step s = .fault f → (cycle s).pc = s.pc

/-- R22: which general registers each instruction may write; VF as a flag only by the six flag writers (R21). -/
def Obligations.RegistersAnInstructionMayWrite : Prop :=
  ∀ (i : Instr) (s t : State), exec i s = .next t → ∀ r, writesReg r i = false → t.readV r = s.readV r

/-- R23, R27 to R32, R36: `I`, the stack, the timers, the framebuffer and memory are written by the listed
instructions alone; the keypad, `ir`, `halted` and `fault` by none. -/
def Obligations.PartsAnInstructionMayWrite : Prop :=
  ∀ (i : Instr) (s t : State), exec i s = .next t →
    ChangesOnly (List.finRange 16) (Part.pc :: writesPart i) s t

/-- R201 (the spec's decisions D8 to D12; assumption log 17): an instruction raises only the faults listed for it, its
record naming its address and word; one with no listed fault always completes. -/
def Obligations.InstructionsRaiseOnlyTheirListedFaults : Prop :=
  (∀ (i : Instr) (s : State) (f : Fault), exec i s = .fault f →
    f.code ∈ faultCodes i ∧ f.addr = s.pc - 2 ∧ f.word = some s.ir) ∧
  ∀ (i : Instr) (s : State), faultCodes i = [] → ∃ t, exec i s = .next t

/-- R31: "read only by key-test/key-wait opcodes": any other instruction does the same whatever the keys are.
(It compares two runs: that Cxnn gives both the same byte, the free one of this draw whatever the keys are, is the
model's choice; assumption log 2, unsafe for claims that compare two runs.) -/
def Obligations.OnlyKeyInstructionsSeeTheKeypad : Prop :=
  ∀ (i : Instr) (s : State) (k : Keypad), readsKeys i = false →
    exec i (s.setKeys k) = onNext (fun t => t.setKeys k) (exec i s)

/-- R30: no instruction reads the sound timer: apart from Fx18 every one does the same whatever ST holds, and leaves
it.
(It compares two runs: that Cxnn gives both the same byte, the free one of this draw whatever ST holds, is the model's
choice; assumption log 2, unsafe for claims that compare two runs.) -/
def Obligations.NoInstructionReadsTheSoundTimer : Prop :=
  ∀ (i : Instr) (s : State) (b : Byte),
    ((∀ x, i ≠ .ldStVx x) → exec i (s.setSt b) = onNext (fun t => t.setSt b) (exec i s)) ∧
    ∀ x, i = .ldStVx x → exec i (s.setSt b) = exec i s

/-! ### Invariants -/

/-- Every step keeps the facts of `State.Legal`: `sp ≤ 16` (R28), stack entries at most 0x1000, `pc ≤ 0x10FE` (R26),
memory in canonical form inside the 4096 bytes (R36), `halted` exactly when `fault` holds a record (R37). -/
def Obligations.StepKeepsTheStateLegal : Prop :=
  ∀ s t : State, s.Legal → step s = .next t → t.Legal

/-- The reset state is legal. -/
def Obligations.ResetStateIsLegal : Prop := State.reset.Legal

/-- Every host event (a key write, a cycle that completes, faults or is refused, a reset with any image) keeps a legal
state legal.
(That a rejected image leaves the core as it was is the model's choice, assumption log 12; that a refused cycle does too,
assumption log 6.) -/
def Obligations.EveryHostEventKeepsTheStateLegal : Prop :=
  ∀ (s : State) (e : HostEvent), s.Legal → (s.onEvent e).Legal

/-- From a reset with any image that fits, any sequence of host events (key writes, cycles that complete or fault,
further resets) leaves a legal state.
(That a rejected image leaves the core as it was is the model's choice; assumption log 12.) -/
def Obligations.EveryHostRunStaysLegal : Prop :=
  ∀ (rom : List Byte) (s : State) (es : List HostEvent), State.resetWith rom = .ok s → (s.onEvents es).Legal

/-- A legal state is never refused: each of its cycles completes or takes one of the seven faults. -/
def Obligations.LegalStatesAreNeverRefused : Prop :=
  ∀ s : State, s.Legal → (∃ t, step s = .next t) ∨ ∃ f, step s = .fault f

/-! ### Reset and program load (10_state.md R39, 70_reset_and_hazards.md) -/

/-- R39 (`ir`, `halted`, `fault` by the spec's decisions D21 and D23): every piece of state after reset with an image of
`L ≤ 3584` bytes.
(The font bytes are the parameter, a constant without a body: assumption log 1.) -/
def Obligations.StateAfterReset : Prop :=
  ∀ rom : List Byte, rom.length ≤ 3584 → ∃ s, State.resetWith rom = .ok s ∧
    (∀ r, s.readV r = 0) ∧ s.index = 0 ∧ s.pc = 0x200 ∧ s.sp = 0 ∧ (∀ k, s.stackAt k = 0) ∧ s.dt = 0 ∧ s.st = 0 ∧
    (∀ k, s.keyAt k = false) ∧ (∀ r c, s.pixelAt r c = false) ∧ s.ir = 0 ∧ s.halted = false ∧ s.fault = none ∧
    (∀ a, a ≤ 0x04F → s.byteAt a = 0) ∧ (∀ i : Fin 80, s.byteAt (0x050 + i.val) = Config.fontTable i) ∧
    (∀ a, 0x0A0 ≤ a → a ≤ 0x1FF → s.byteAt a = 0) ∧
    (∀ j (h : j < rom.length), s.byteAt (0x200 + j) = rom[j]) ∧
    ∀ a, 0x200 + rom.length ≤ a → a ≤ 0xFFF → s.byteAt a = 0

/-- R234, R212: an image longer than 3584 bytes is a LoadError; no core state exists for it, and a core it is
offered to is left as it was (that this holds of a running core is the model's choice; assumption log 12). -/
def Obligations.OversizedImageIsALoadError : Prop :=
  ∀ (rom : List Byte) (s : State), rom.length > 3584 →
    State.resetWith rom = .error (.tooLong rom.length) ∧ s.onEvent (.reset rom) = s

/-- R237 (the spec's decision D21): a reset of a running or halted core is the reset of R231; only the model's count
of draws goes on (assumption log 2, the model's choice). -/
def Obligations.ResetDiscardsThePreviousRun : Prop :=
  ∀ (rom : List Byte) (s t : State), State.resetWith rom = .ok t →
    s.onEvent (.reset rom) = { t with draws := s.draws }

/-! ### Control transfer (41_control_flow.md) -/

/-- R101, 00EE: the last return address becomes `pc`; the entry keeps its value; an empty stack is StackUnderflow
(the spec's decision D8; assumption log 17).
(`sp ≤ 16` is R28's invariant, kept by every step.) -/
def Obligations.ReturnPopsTheStack : Prop :=
  decode 0x00EE#16 = .ok .ret ∧
  ∀ s : State, (s.sp = 0 → Faults .ret s (Fault.stackUnderflow 0)) ∧
    (0 < s.sp.toNat → s.sp.toNat ≤ 16 →
      Completes .ret s [] [.pc, .sp] fun t =>
        t.sp.toNat = s.sp.toNat - 1 ∧ t.pc = s.stackAt (s.sp.toNat - 1))

/-- The model's choice (assumption log 6), not the spec's: 00EE with `sp > 16`, which R28 says never arises, is
refused. -/
def Obligations.ReturnAboveSixteenIsRefused : Prop :=
  ∀ s : State, s.sp.toNat > 16 → exec .ret s = .refused (.stackPointerOutOfRange s.sp)

/-- R102, 1nnn: any target is accepted; nothing but `pc` changes. -/
def Obligations.JumpSetsPc : Prop :=
  ∀ nnn : Word, nnn.toNat < 0x1000 → decode (patternA 0x1000 nnn) = .ok (.jp nnn) ∧
    ∀ s : State, Completes (.jp nnn) s [] [.pc] fun t => t.pc = nnn

/-- R103, 2nnn: the advanced `pc` is pushed, `sp` counts it and `pc` is the target; a full stack is StackOverflow
(the spec's decision D8; assumption log 17). -/
def Obligations.CallPushesTheAdvancedPc : Prop :=
  ∀ nnn : Word, nnn.toNat < 0x1000 → decode (patternA 0x2000 nnn) = .ok (.call nnn) ∧
    ∀ s : State, (s.sp.toNat ≥ 16 → Faults (.call nnn) s (Fault.stackOverflow s.sp)) ∧
      (s.sp.toNat < 16 → Completes (.call nnn) s [] [.pc, .sp, .stack] fun t =>
        t.pc = nnn ∧ t.sp.toNat = s.sp.toNat + 1 ∧ t.stackAt s.sp.toNat = s.pc ∧
          ∀ k, k ≠ s.sp.toNat → t.stackAt k = s.stackAt k)

/-- A call followed by a return, wherever the return stands, resumes after the call with the stack as deep as
before. -/
def Obligations.ReturnResumesAfterTheCall : Prop :=
  ∀ (nnn : Word) (s : State), s.sp.toNat < 16 → ∃ t, exec (.call nnn) s = .next t ∧
    ∀ p : Word, ∃ u, exec .ret (t.setPc p) = .next u ∧ u.pc = s.pc ∧ u.sp = s.sp

/-- R104, R105, 3xnn and 4xnn: the skip adds 2 to the advanced `pc` exactly when Vx equals (differs from) the byte. -/
def Obligations.SkipsOnByteCompareVxWithNn : Prop :=
  ∀ (x : Reg) (nn : Byte),
    (decode (patternXK 0x3000 x nn) = .ok (.seVxNn x nn) ∧ decode (patternXK 0x4000 x nn) = .ok (.sneVxNn x nn)) ∧
    ∀ s : State,
      (Completes (.seVxNn x nn) s [] [.pc] fun t => t.pc = if s.readV x = nn then s.pc + 2 else s.pc) ∧
      Completes (.sneVxNn x nn) s [] [.pc] fun t => t.pc = if s.readV x ≠ nn then s.pc + 2 else s.pc

/-- R106, R107, 5xy0 and 9xy0: the skip is taken exactly when Vx equals (differs from) Vy; any other low nibble is a
DecodeError (the spec's decision D6; assumption log 16). -/
def Obligations.SkipsOnRegisterCompareVxWithVy : Prop :=
  ∀ x y : Reg,
    (decode (patternXYN 0x5000 x y 0) = .ok (.seVxVy x y) ∧ decode (patternXYN 0x9000 x y 0) = .ok (.sneVxVy x y)) ∧
    (∀ n, 0 < n → n < 16 →
      decode (patternXYN 0x5000 x y n) = .error (.noPattern (patternXYN 0x5000 x y n)) ∧
      decode (patternXYN 0x9000 x y n) = .error (.noPattern (patternXYN 0x9000 x y n))) ∧
    ∀ s : State,
      (Completes (.seVxVy x y) s [] [.pc] fun t => t.pc = if s.readV x = s.readV y then s.pc + 2 else s.pc) ∧
      Completes (.sneVxVy x y) s [] [.pc] fun t => t.pc = if s.readV x ≠ s.readV y then s.pc + 2 else s.pc

/-- R108, Bnnn: the target is `V[0] + nnn`, exact; a sum above 0xFFE faults in the next fetch (the spec's
decision D9; assumption log 17). -/
def Obligations.JumpWithOffsetAddsV0 : Prop :=
  ∀ nnn : Word, nnn.toNat < 0x1000 → decode (patternA 0xB000 nnn) = .ok (.jpV0 nnn) ∧
    ∀ s : State, Completes (.jpV0 nnn) s [] [.pc] fun t =>
      t.pc.toNat = (s.readV v0).toNat + nnn.toNat ∧
        (t.pc.toNat > 0xFFE → t.halted = false → step t = .fault (.fetchOutOfBounds t.pc))

/-! ### Register load, arithmetic, logic, random (42_load_alu.md) -/

/-- R120, R122, 6xnn and 8xy0: a byte or a register is copied to Vx. -/
def Obligations.LoadsCopyByteOrRegister : Prop :=
  ∀ (x y : Reg) (nn : Byte),
    (decode (patternXK 0x6000 x nn) = .ok (.ldVxNn x nn) ∧ decode (patternXYN 0x8000 x y 0x0) = .ok (.ldVxVy x y)) ∧
    ∀ s : State,
      (Completes (.ldVxNn x nn) s [x] [] fun t => t.readV x = nn) ∧
      Completes (.ldVxVy x y) s [x] [] fun t => t.readV x = s.readV y

/-- R121, 7xnn: the sum wraps modulo 256 and VF is touched only as the destination. -/
def Obligations.AddByteWrapsWithoutFlag : Prop :=
  ∀ (x : Reg) (nn : Byte), decode (patternXK 0x7000 x nn) = .ok (.addVxNn x nn) ∧
    ∀ s : State, Completes (.addVxNn x nn) s [x] [] fun t =>
      (t.readV x).toNat = ((s.readV x).toNat + nn.toNat) % 256

/-- R123, R124, R125, 8xy1 to 8xy3: the operation acts on each bit of Vx and Vy; VF is touched only as the
destination. -/
def Obligations.LogicIsBitwiseWithoutFlag : Prop :=
  ∀ x y : Reg,
    (decode (patternXYN 0x8000 x y 0x1) = .ok (.orVxVy x y) ∧ decode (patternXYN 0x8000 x y 0x2) = .ok (.andVxVy x y) ∧
      decode (patternXYN 0x8000 x y 0x3) = .ok (.xorVxVy x y)) ∧
    ∀ s : State,
      (Completes (.orVxVy x y) s [x] [] fun t => ∀ k, k < 8 →
        (t.readV x).getLsbD k = ((s.readV x).getLsbD k || (s.readV y).getLsbD k)) ∧
      (Completes (.andVxVy x y) s [x] [] fun t => ∀ k, k < 8 →
        (t.readV x).getLsbD k = ((s.readV x).getLsbD k && (s.readV y).getLsbD k)) ∧
      Completes (.xorVxVy x y) s [x] [] fun t => ∀ k, k < 8 →
        (t.readV x).getLsbD k = ((s.readV x).getLsbD k ^^ (s.readV y).getLsbD k)

/-- R126, 8xy4: Vx becomes the sum modulo 256 and VF the carry; with `x = F` the carry stands
(R133: the spec's decisions D4 and D5; assumption log 4). -/
def Obligations.AddSetsCarry : Prop :=
  ∀ x y : Reg, decode (patternXYN 0x8000 x y 0x4) = .ok (.addVxVy x y) ∧
    ∀ s : State, CompletesWithFlag (.addVxVy x y) s x
      (BitVec.ofNat 8 (((s.readV x).toNat + (s.readV y).toNat) % 256))
      (decide ((s.readV x).toNat + (s.readV y).toNat > 255))
      (if (s.readV x).toNat + (s.readV y).toNat > 255 then 1 else 0)

/-- R127, 8xy5: Vx becomes `Vx − Vy` modulo 256 and VF says whether Vx > Vy, strictly; with `x = F` the difference
stands (R133: the spec's decisions D4 and D5; assumption log 4). -/
def Obligations.SubtractSetsNoBorrow : Prop :=
  ∀ x y : Reg, decode (patternXYN 0x8000 x y 0x5) = .ok (.subVxVy x y) ∧
    ∀ s : State, CompletesWithFlag (.subVxVy x y) s x
      (BitVec.ofNat 8 (((s.readV x).toNat + 256 - (s.readV y).toNat) % 256))
      (decide ((s.readV x).toNat > (s.readV y).toNat))
      (BitVec.ofNat 8 (((s.readV x).toNat + 256 - (s.readV y).toNat) % 256))

/-- R129, 8xy7: Vx becomes `Vy − Vx` modulo 256 and VF says whether Vy > Vx, strictly; Vy keeps its value; with
`x = F` the difference stands (R133: the spec's decisions D4 and D5; assumption log 4). -/
def Obligations.ReverseSubtractSetsNoBorrow : Prop :=
  ∀ x y : Reg, decode (patternXYN 0x8000 x y 0x7) = .ok (.subnVxVy x y) ∧
    ∀ s : State, CompletesWithFlag (.subnVxVy x y) s x
      (BitVec.ofNat 8 (((s.readV y).toNat + 256 - (s.readV x).toNat) % 256))
      (decide ((s.readV y).toNat > (s.readV x).toNat))
      (BitVec.ofNat 8 (((s.readV y).toNat + 256 - (s.readV x).toNat) % 256))

/-- R128, 8xy6: Vx is halved and VF is the bit shifted out; for every `y`, with the same result; with `x = F` the
halved value stands (R133: the spec's decisions D4 and D5; assumption log 4). -/
def Obligations.ShiftRightPutsBitZeroInVF : Prop :=
  ∀ x y : Reg, decode (patternXYN 0x8000 x y 0x6) = .ok (.shrVx x y) ∧
    ∀ s : State, CompletesWithFlag (.shrVx x y) s x (BitVec.ofNat 8 ((s.readV x).toNat / 2))
      (decide ((s.readV x).toNat % 2 = 1)) (BitVec.ofNat 8 ((s.readV x).toNat / 2))

/-- R130, 8xyE: Vx is doubled modulo 256 and VF is the bit shifted out; for every `y`, with the same result; with
`x = F` the doubled value stands (R133: the spec's decisions D4 and D5; assumption log 4). -/
def Obligations.ShiftLeftPutsBitSevenInVF : Prop :=
  ∀ x y : Reg, decode (patternXYN 0x8000 x y 0xE) = .ok (.shlVx x y) ∧
    ∀ s : State, CompletesWithFlag (.shlVx x y) s x (BitVec.ofNat 8 ((s.readV x).toNat * 2 % 256))
      (decide ((s.readV x).toNat ≥ 128)) (BitVec.ofNat 8 ((s.readV x).toNat * 2 % 256))

/-- R131 (the spec's decision D14), Cxnn: Vx becomes the free byte of this draw under the mask; its bits lie under
`nn`; every masked value is some draw's; the next Cxnn draws anew.
(The free byte is `Config.randomByte`, a constant without a body: the statement holds for every value of it;
assumption log 2.) -/
def Obligations.RandomByteIsMasked : Prop :=
  ∀ (x : Reg) (nn : Byte), decode (patternXK 0xC000 x nn) = .ok (.rnd x nn) ∧
    ∀ s : State,
      (Completes (.rnd x nn) s [x] [.draws] fun t =>
        t.readV x = Config.randomByte s.draws &&& nn ∧ (t.readV x).toNat ≤ nn.toNat ∧
          (∀ k, nn.getLsbD k = false → (t.readV x).getLsbD k = false) ∧ t.draws ≠ s.draws) ∧
      ∀ r : Byte, r &&& nn = r → ∃ b t, rndWith b x nn s = .next t ∧ t.readV x = r

/-! ### Index register and memory (43_index_memory.md) -/

/-- R140, R142, Annn and Fx29: they load `I` with the address and with the glyph address of the whole byte, and
nothing else changes. -/
def Obligations.IndexIsLoadedWithAddressOrGlyph : Prop :=
  ∀ (nnn : Word) (x : Reg), nnn.toNat < 0x1000 →
    (decode (patternA 0xA000 nnn) = .ok (.ldINnn nnn) ∧ decode (patternXF 0xF029 x) = .ok (.ldFVx x)) ∧
    ∀ s : State,
      (Completes (.ldINnn nnn) s [] [.index] fun t => t.index = nnn) ∧
      Completes (.ldFVx x) s [] [.index] fun t => t.index.toNat = 0x050 + 5 * (s.readV x).toNat

/-- R141, Fx1E: `I` becomes the sum modulo 2^16 (the spec's decision D18; assumption log 18) and no flag is
written. -/
def Obligations.AddToIndexWrapsAt65536 : Prop :=
  ∀ x : Reg, decode (patternXF 0xF01E x) = .ok (.addIVx x) ∧
    ∀ s : State, Completes (.addIVx x) s [] [.index] fun t =>
      t.index.toNat = (s.index.toNat + (s.readV x).toNat) % 65536

/-- R143, Fx33: the three digits go to `I`, `I + 1`, `I + 2` and no other byte changes; if one of them is outside
memory the instruction faults and stores nothing (the spec's decision D9; assumption log 17).
(The premise on memory is its canonical form, kept by every step.) -/
def Obligations.DecimalDigitsAreStored : Prop :=
  ∀ x : Reg, decode (patternXF 0xF033 x) = .ok (.ldBVx x) ∧
    ∀ s : State,
      (s.index.toNat + 2 > 0xFFF → MemFault (.ldBVx x) s) ∧
      (s.mem.wf → s.index.toNat + 2 ≤ 0xFFF → Completes (.ldBVx x) s [] [.mem] fun t =>
        (t.byteAt (effectiveAddress s 0)).toNat = (s.readV x).toNat / 100 ∧
        (t.byteAt (effectiveAddress s 1)).toNat = (s.readV x).toNat / 10 % 10 ∧
        (t.byteAt (effectiveAddress s 2)).toNat = (s.readV x).toNat % 10 ∧
        ∀ a, a < effectiveAddress s 0 ∨ effectiveAddress s 2 < a → t.byteAt a = s.byteAt a)

/-- R144, Fx55: V0 to Vx go to `I` .. `I + x` and no other byte changes; if one of these addresses is outside memory
the instruction faults and stores nothing (the spec's decision D9; assumption log 17). -/
def Obligations.RegistersAreStored : Prop :=
  ∀ x : Reg, decode (patternXF 0xF055 x) = .ok (.ldMiVx x) ∧
    ∀ s : State,
      (s.index.toNat + x.val > 0xFFF → MemFault (.ldMiVx x) s) ∧
      (s.mem.wf → s.index.toNat + x.val ≤ 0xFFF → Completes (.ldMiVx x) s [] [.mem] fun t =>
        (∀ r : Reg, r ≤ x → t.byteAt (effectiveAddress s r.val) = s.readV r) ∧
        ∀ a, a < effectiveAddress s 0 ∨ effectiveAddress s x.val < a → t.byteAt a = s.byteAt a)

/-- R145, Fx65: V0 to Vx come from `I` .. `I + x`; registers above `x`, `I` and memory are unchanged; if one of these
addresses is outside memory the instruction faults and loads nothing (the spec's decision D9; assumption log 17). -/
def Obligations.RegistersAreLoaded : Prop :=
  ∀ x : Reg, decode (patternXF 0xF065 x) = .ok (.ldVxMi x) ∧
    ∀ s : State,
      (s.index.toNat + x.val > 0xFFF → MemFault (.ldVxMi x) s) ∧
      (s.index.toNat + x.val ≤ 0xFFF →
        Completes (.ldVxMi x) s ((List.finRange 16).filter fun r => decide (r ≤ x)) [] fun t =>
          ∀ r : Reg, r ≤ x → t.readV r = s.byteAt (effectiveAddress s r.val))

/-- The round trip of Fx55 and Fx65: whatever happens to the registers between, the stored values come back. -/
def Obligations.StoreThenLoadRestoresRegisters : Prop :=
  ∀ (x : Reg) (s : State), s.mem.wf → s.index.toNat + x.val ≤ 0xFFF → ∃ t, exec (.ldMiVx x) s = .next t ∧
    ∀ u : State, u.mem = t.mem → u.index = t.index →
      ∃ w, exec (.ldVxMi x) u = .next w ∧ ∀ r : Reg, r ≤ x → w.readV r = s.readV r

/-- R62, R243: what a completed Fx55 or Fx33 cycle stored is what every later fetch takes, the very next one included,
wherever it fetches from and whichever of its two bytes the store covers; the fetched instruction completes as what it
was, also when it overwrites itself. -/
def Obligations.StoreIsSeenByTheNextFetch : Prop :=
  ∀ (s : State) (w : Word) (x : Reg), s.mem.wf →
    (Fetches s w (.ldMiVx x) → s.index.toNat + x.val ≤ 0xFFF →
      ∃ t, step s = .next t ∧ t.pc = s.pc + 2 ∧
        (s.pc.toNat + 2 ≤ 0xFFE → t.fetchWord =
          some (wordOf (byteAfterRegisters s x (s.pc.toNat + 2)) (byteAfterRegisters s x (s.pc.toNat + 3)))) ∧
        ∀ p : Word, p.toNat ≤ 0xFFE → (t.setPc p).fetchWord =
          some (wordOf (byteAfterRegisters s x p.toNat) (byteAfterRegisters s x (p.toNat + 1)))) ∧
    (Fetches s w (.ldBVx x) → s.index.toNat + 2 ≤ 0xFFF →
      ∃ t, step s = .next t ∧ t.pc = s.pc + 2 ∧
        (s.pc.toNat + 2 ≤ 0xFFE → t.fetchWord =
          some (wordOf (byteAfterDigits s x (s.pc.toNat + 2)) (byteAfterDigits s x (s.pc.toNat + 3)))) ∧
        ∀ p : Word, p.toNat ≤ 0xFFE → (t.setPc p).fetchWord =
          some (wordOf (byteAfterDigits s x p.toNat) (byteAfterDigits s x (p.toNat + 1))))

/-! ### Display (44_display.md) -/

/-- R160, 00E0: every pixel is off and nothing else changes, VF included. -/
def Obligations.ClearScreenTurnsEveryPixelOff : Prop :=
  decode 0x00E0#16 = .ok .cls ∧
  ∀ s : State, Completes .cls s [] [.fb] fun t => ∀ r c, r < 32 → c < 64 → t.pixelAt r c = false

/-- R161, Dxyn, when pass 1 finds nothing: exactly the pixels under set sprite bits are toggled, VF is 1 when one of
them was on and 0 otherwise, coordinates come from the registers as they were, and nothing else changes.
(Bit 7 of a sprite byte as the left column is the spec's G2 and D16; assumption log 5.) -/
def Obligations.DrawTogglesExactlyTheSetBits : Prop :=
  ∀ (x y : Reg) (n : Nat), (n < 16 → decode (patternXYN 0xD000 x y n) = .ok (.drw x y n)) ∧
    ∀ s : State, spritePasses s ((s.readV x).toNat % 64) ((s.readV y).toNat % 32) n →
      Completes (.drw x y n) s [vF] [.fb] fun t =>
        (∀ row col, row < 32 → col < 64 →
          (coveredBySet s ((s.readV x).toNat % 64) ((s.readV y).toNat % 32) n row col →
            t.pixelAt row col = !s.pixelAt row col) ∧
          (¬coveredBySet s ((s.readV x).toNat % 64) ((s.readV y).toNat % 32) n row col →
            t.pixelAt row col = s.pixelAt row col)) ∧
        ((∃ row col, coveredBySet s ((s.readV x).toNat % 64) ((s.readV y).toNat % 32) n row col ∧
            s.pixelAt row col = true) → t.readV vF = 1) ∧
        ((∀ row col, coveredBySet s ((s.readV x).toNat % 64) ((s.readV y).toNat % 32) n row col →
            s.pixelAt row col = false) → t.readV vF = 0)

/-- R161 pass 1 and R209, Dxyn: the first failing check in row-major order is the fault, the memory check of a row
before that row's pixels.
(The spec's decisions D9, D10 and D13, assumption log 17; its G2 and D16, assumption log 5.) -/
def Obligations.DrawFaultsAtTheFirstFailingCheck : Prop :=
  ∀ (x y : Reg) (n : Nat) (s : State) (r : Nat), r < n →
    (∀ q, q < r → rowPasses s ((s.readV x).toNat % 64) ((s.readV y).toNat % 32) q 8) →
    (effectiveAddress s r > 0xFFF → Faults (.drw x y n) s (Fault.memOutOfBounds (effectiveAddress s r))) ∧
    ∀ c, c < 8 → rowPasses s ((s.readV x).toNat % 64) ((s.readV y).toNat % 32) r c → spriteSet s r c = true →
      ((s.readV x).toNat % 64 + c > 63 ∨ (s.readV y).toNat % 32 + r > 31) →
      Faults (.drw x y n) s (Fault.fbOutOfBounds ((s.readV y).toNat % 32 + r) ((s.readV x).toNat % 64 + c))

/-- The same sprite drawn twice at the same place restores the framebuffer, and the second draw leaves VF = 1 exactly
when some pixel under a set bit was off before the first.
(The VF clause is the model's reading of R161, its pseudocode, against R161's own corner case, "leaves VF = 1 if the
sprite has any set bit"; assumption log 15.)
(Bit 7 of a sprite byte as the left column is the spec's G2 and D16; assumption log 5.)
(With `x` or `y` VF itself the first draw overwrites the coordinate, so the second is drawn elsewhere; each single draw
is `DrawTogglesExactlyTheSetBits`.) -/
def Obligations.DrawingTwiceRestoresTheFramebuffer : Prop :=
  ∀ (x y : Reg) (n : Nat) (s : State), x ≠ vF → y ≠ vF →
    spritePasses s ((s.readV x).toNat % 64) ((s.readV y).toNat % 32) n →
    ∃ t u, exec (.drw x y n) s = .next t ∧ exec (.drw x y n) t = .next u ∧
      (∀ row col, u.pixelAt row col = s.pixelAt row col) ∧
      (u.readV vF = 1 ↔ ∃ row col, coveredBySet s ((s.readV x).toNat % 64) ((s.readV y).toNat % 32) n row col ∧
        s.pixelAt row col = false)

/-! ### Keypad and timers (45_keypad_timers.md) -/

/-- R170, R171, Ex9E and ExA1: the skip depends on key `V[x]` alone; an index above 15 is KeyIndexOutOfRange, not
masked (the spec's decision D11; assumption log 17). -/
def Obligations.KeySkipsTestTheKeyInVx : Prop :=
  ∀ x : Reg,
    (decode (patternXF 0xE09E x) = .ok (.skp x) ∧ decode (patternXF 0xE0A1 x) = .ok (.sknp x)) ∧
    ∀ s : State,
      ((s.readV x).toNat > 15 →
        Faults (.skp x) s (Fault.keyIndexOutOfRange (s.readV x)) ∧
        Faults (.sknp x) s (Fault.keyIndexOutOfRange (s.readV x))) ∧
      ((s.readV x).toNat ≤ 15 →
        (Completes (.skp x) s [] [.pc] fun t =>
          t.pc = if s.keyAt (s.readV x).toNat = true then s.pc + 2 else s.pc) ∧
        Completes (.sknp x) s [] [.pc] fun t =>
          t.pc = if s.keyAt (s.readV x).toNat = false then s.pc + 2 else s.pc)

/-- R172, Fx0A: the least pressed key goes to Vx; with no key pressed only `pc` changes, back to the instruction, and
the waiting cycle is a whole cycle: its word is in `ir`, `pc` ends where it was and both timers tick. -/
def Obligations.KeyWaitTakesTheLeastPressedKey : Prop :=
  ∀ x : Reg, decode (patternXF 0xF00A x) = .ok (.ldVxK x) ∧
    ∀ s : State,
      (∀ k, k < 16 → s.keyAt k = true → (∀ j, j < k → s.keyAt j = false) →
        Completes (.ldVxK x) s [x] [] fun t => (t.readV x).toNat = k) ∧
      ((∀ k, k < 16 → s.keyAt k = false) →
        (Completes (.ldVxK x) s [] [.pc] fun t => t.pc = s.pc - 2) ∧
        ∀ w, Fetches s w (.ldVxK x) →
          ∃ t, step s = .next t ∧ t.pc = s.pc ∧ t.ir = w ∧ t.dt.toNat = s.dt.toNat - 1 ∧
            t.st.toNat = s.st.toNat - 1 ∧ ChangesOnly [] [.ir, .dt, .st] s t)

/-- R173, R174, R175, Fx07, Fx15 and Fx18: the delay timer is read, the delay and sound timers are set; Fx07 reads DT
before its cycle's tick, and a timer just set is counted down in the same cycle. -/
def Obligations.TimerInstructionsReadAndSetTheTimers : Prop :=
  ∀ x : Reg,
    (decode (patternXF 0xF007 x) = .ok (.ldVxDt x) ∧ decode (patternXF 0xF015 x) = .ok (.ldDtVx x) ∧
      decode (patternXF 0xF018 x) = .ok (.ldStVx x)) ∧
    ∀ s : State,
      ((Completes (.ldVxDt x) s [x] [] fun t => t.readV x = s.dt) ∧
        (Completes (.ldDtVx x) s [] [.dt] fun t => t.dt = s.readV x) ∧
        Completes (.ldStVx x) s [] [.st] fun t => t.st = s.readV x) ∧
      ∀ w,
        (Fetches s w (.ldVxDt x) → ∃ t, step s = .next t ∧ t.readV x = s.dt ∧ t.dt.toNat = s.dt.toNat - 1) ∧
        (Fetches s w (.ldDtVx x) → ∃ t, step s = .next t ∧ t.dt.toNat = (s.readV x).toNat - 1) ∧
        (Fetches s w (.ldStVx x) → ∃ t, step s = .next t ∧ t.st.toNat = (s.readV x).toNat - 1)

/-- R97 (the spec's decision D20; assumption log 19): once a program spins in a jump to itself with both timers at 0,
every further cycle changes nothing but `ir`. -/
def Obligations.FinishedProgramStaysFinished : Prop :=
  ∀ s : State, s.Finished → ∃ t, step s = .next t ∧ t.Finished ∧ ChangesOnly [] [.ir] s t
end

