-- ==== Sys2Proof/Laws/Decode.lean ====
section
/-! SUPPORT. The fields of a word as arithmetic on its number (00_scope.md R10), the byte order of a word (20_memory.md
R51), and that decoding gives well-formed instructions. -/

namespace Sys2Proof

theorem groupOf_eq (w : Word) : groupOf w = w.toNat / 0x1000 := by
  have := w.isLt
  simp only [groupOf, BitVec.extractLsb'_toNat, Nat.shiftRight_eq_div_pow]
  omega

theorem fieldX_val (w : Word) : (fieldX w).val = w.toNat / 0x100 % 16 := by
  simp [fieldX, BitVec.extractLsb'_toNat, Nat.shiftRight_eq_div_pow]

theorem fieldY_val (w : Word) : (fieldY w).val = w.toNat / 0x10 % 16 := by
  simp [fieldY, BitVec.extractLsb'_toNat, Nat.shiftRight_eq_div_pow]

theorem fieldN_eq (w : Word) : fieldN w = w.toNat % 16 := by
  simp [fieldN, BitVec.extractLsb'_toNat]

theorem fieldNN_toNat (w : Word) : (fieldNN w).toNat = w.toNat % 0x100 := by
  simp [fieldNN, BitVec.extractLsb'_toNat]

theorem fieldNNN_toNat (w : Word) : (fieldNNN w).toNat = w.toNat % 0x1000 := by
  simp [fieldNNN, BitVec.extractLsb'_toNat]
  omega

/-- The high byte stands at the lower address (R51). -/
theorem wordOf_toNat (hi lo : Byte) : (wordOf hi lo).toNat = 0x100 * hi.toNat + lo.toNat := by
  have := lo.isLt
  simp only [wordOf, BitVec.toNat_append]
  rw [Nat.shiftLeft_eq, Nat.mul_comm, ← Nat.two_pow_add_eq_or_of_lt (by omega)]

/-- `nn` of a word of a known number. -/
theorem fieldNN_eq_iff (w : Word) (b : Byte) : fieldNN w = b ↔ w.toNat % 0x100 = b.toNat := by
  rw [← BitVec.toNat_inj, fieldNN_toNat]

/-- Format A (R71): the number of the word. -/
theorem wordA_toNat (m : Nat) (nnn : Word) (h : nnn.toNat < 0x1000) (hm : m ≤ 0xF000) :
    (wordA m nnn).toNat = m + nnn.toNat := by
  simp only [wordA, BitVec.toNat_ofNat]
  omega

/-- Format XK (R71): the number of the word. -/
theorem wordXK_toNat (m : Nat) (x : Reg) (nn : Byte) (hm : m ≤ 0xF000) :
    (wordXK m x nn).toNat = m + 0x100 * x.val + nn.toNat := by
  have := x.isLt
  have := nn.isLt
  simp only [wordXK, BitVec.toNat_ofNat]
  omega

/-- Formats XY and XYN (R71): the number of the word. -/
theorem wordXYN_toNat (m : Nat) (x y : Reg) (n : Nat) (h : n < 16) (hm : m ≤ 0xF000) :
    (wordXYN m x y n).toNat = m + 0x100 * x.val + 0x10 * y.val + n := by
  have := x.isLt
  have := y.isLt
  simp only [wordXYN, BitVec.toNat_ofNat]
  omega

/-- Format XF (R71): the number of the word. -/
theorem wordXF_toNat (m : Nat) (x : Reg) (hm : m ≤ 0xF0FF) : (wordXF m x).toNat = m + 0x100 * x.val := by
  have := x.isLt
  simp only [wordXF, BitVec.toNat_ofNat]
  omega

/-- The fields of a word of format A (R71). -/
theorem fields_wordA (m : Nat) (nnn : Word) (h : nnn.toNat < 0x1000) (hm : m ≤ 0xF000) (hd : m % 0x1000 = 0) :
    groupOf (wordA m nnn) = m / 0x1000 ∧ fieldNNN (wordA m nnn) = nnn := by
  constructor
  · rw [groupOf_eq, wordA_toNat m nnn h hm]
    omega
  · apply BitVec.eq_of_toNat_eq
    rw [fieldNNN_toNat, wordA_toNat m nnn h hm]
    omega

/-- The fields of a word of format XK (R71). -/
theorem fields_wordXK (m : Nat) (x : Reg) (nn : Byte) (hm : m ≤ 0xF000) (hd : m % 0x1000 = 0) :
    groupOf (wordXK m x nn) = m / 0x1000 ∧ fieldX (wordXK m x nn) = x ∧ fieldNN (wordXK m x nn) = nn := by
  have := x.isLt
  have := nn.isLt
  refine ⟨?_, Fin.ext ?_, ?_⟩
  · rw [groupOf_eq, wordXK_toNat m x nn hm]
    omega
  · rw [fieldX_val, wordXK_toNat m x nn hm]
    omega
  · rw [fieldNN_eq_iff, wordXK_toNat m x nn hm]
    omega

/-- The fields of a word of format XY or XYN (R71). -/
theorem fields_wordXYN (m : Nat) (x y : Reg) (n : Nat) (h : n < 16) (hm : m ≤ 0xF000) (hd : m % 0x1000 = 0) :
    groupOf (wordXYN m x y n) = m / 0x1000 ∧ fieldX (wordXYN m x y n) = x ∧ fieldY (wordXYN m x y n) = y ∧
      fieldN (wordXYN m x y n) = n := by
  have := x.isLt
  have := y.isLt
  refine ⟨?_, Fin.ext ?_, Fin.ext ?_, ?_⟩
  · rw [groupOf_eq, wordXYN_toNat m x y n h hm]
    omega
  · rw [fieldX_val, wordXYN_toNat m x y n h hm]
    omega
  · rw [fieldY_val, wordXYN_toNat m x y n h hm]
    omega
  · rw [fieldN_eq, wordXYN_toNat m x y n h hm]
    omega

/-- The fields of a word of format XF (R71). -/
theorem fields_wordXF (m : Nat) (x : Reg) (hm : m ≤ 0xF0FF) (hd : m % 0x1000 < 0x100) :
    groupOf (wordXF m x) = m / 0x1000 ∧ fieldX (wordXF m x) = x ∧ fieldNN (wordXF m x) = BitVec.ofNat 8 m := by
  have := x.isLt
  refine ⟨?_, Fin.ext ?_, ?_⟩
  · rw [groupOf_eq, wordXF_toNat m x hm]
    omega
  · rw [fieldX_val, wordXF_toNat m x hm]
    omega
  · rw [fieldNN_eq_iff, wordXF_toNat m x hm, BitVec.toNat_ofNat]
    omega

theorem addressFits_fieldNNN (w : Word) : addressFits (fieldNNN w) = true := by
  simp only [addressFits, fieldNNN_toNat, decide_eq_true_eq]
  omega

theorem rowCountFits_fieldN (w : Word) : rowCountFits (fieldN w) = true := by
  simp only [rowCountFits, fieldN_eq, decide_eq_true_eq]
  omega

theorem decodeGroup8_wellFormed (w : Word) (i : Instr) (h : decodeGroup8 w = .ok i) : i.wellFormed = true := by
  unfold decodeGroup8 at h
  split at h <;> first | (cases h; rfl) | cases h

theorem decodeGroupE_wellFormed (w : Word) (i : Instr) (h : decodeGroupE w = .ok i) : i.wellFormed = true := by
  unfold decodeGroupE at h
  repeat' split at h
  all_goals first | (cases h; rfl) | cases h

theorem decodeGroupF_wellFormed (w : Word) (i : Instr) (h : decodeGroupF w = .ok i) : i.wellFormed = true := by
  unfold decodeGroupF at h
  repeat' split at h
  all_goals first | (cases h; rfl) | cases h

/-- What decodes is well-formed (R78: every field value is legal). -/
theorem decode_wellFormed (w : Word) (i : Instr) (h : decode w = .ok i) : i.wellFormed = true := by
  unfold decode at h
  split at h
  · unfold decodeGroup0 at h
    repeat' split at h
    all_goals first | (cases h; rfl) | cases h
  all_goals first
    | exact decodeGroup8_wellFormed w i h
    | exact decodeGroupE_wellFormed w i h
    | exact decodeGroupF_wellFormed w i h
    | (cases h; first | rfl | exact addressFits_fieldNNN w | exact rowCountFits_fieldN w)
    | (split at h <;> first | (cases h; rfl) | cases h)
    | cases h

end Sys2Proof
end

