-- ==== Sys2Proof/Laws/Memory.lean ====
section
/-! SUPPORT. Memory: what a read sees after a write or a load, and that every memory operation keeps the canonical form
(20_memory.md R54, R56, R59). -/

namespace Sys2Proof.Machine

@[simp] theorem Memory.read_nil (a : Nat) : Memory.read [] a = unlistedByte a := rfl

/-- An address below every listed one reads as unlisted. -/
theorem Memory.read_of_lt (m : Memory) (a : Nat) (h : ∀ c ∈ m, a < c.1) : m.read a = unlistedByte a := by
  induction m with
  | nil => rfl
  | cons c m ih =>
    have hc := h c (by simp)
    simp only [Memory.read, Nat.ne_of_lt hc, if_false]
    exact ih fun d hd => h d (by simp [hd])

/-- A listed address reads as its byte. -/
theorem Memory.read_of_mem (m : Memory) (h : m.Pairwise fun c d => c.1 < d.1) (c : Host.Cell) (hc : c ∈ m) :
    m.read c.1 = c.2 := by
  induction m with
  | nil => simp at hc
  | cons d m ih =>
    rw [List.pairwise_cons] at h
    rcases List.mem_cons.1 hc with rfl | hc
    · simp [Memory.read]
    · have := h.1 c hc
      simp only [Memory.read, (Nat.ne_of_lt this).symm, if_false]
      exact ih h.2 hc

/-- A read after a write: the byte written at that address, the old byte everywhere else. -/
theorem Memory.read_write_of_pairwise (m : Memory) (h : m.Pairwise fun c d => c.1 < d.1) (a : Nat) (v : Byte) (b : Nat) :
    (m.write a v).read b = if b = a then v else m.read b := by
  induction m with
  | nil =>
    simp only [Memory.write]
    split <;> by_cases hb : b = a <;> simp_all [Memory.read]
  | cons c m ih =>
    obtain ⟨c1, c2⟩ := c
    rw [List.pairwise_cons] at h
    have hlt : ∀ d ∈ m, c1 < d.1 := fun d hd => h.1 d hd
    simp only [Memory.write]
    split
    · rename_i hac
      have hm : Memory.read m a = unlistedByte a :=
        Memory.read_of_lt m a fun d hd => Nat.lt_trans hac (hlt d hd)
      split <;> by_cases hb : b = a <;> simp_all [Memory.read, Nat.ne_of_lt]
    · split
      · rename_i _ hac
        subst hac
        have hm : Memory.read m a = unlistedByte a := Memory.read_of_lt m a hlt
        split <;> by_cases hb : b = a <;> simp_all [Memory.read]
      · by_cases hb : b = c1
        · subst hb
          simp_all [Memory.read, eq_comm]
        · simp [Memory.read, hb, ih h.2]

/-- A write of the canonical form is read back, and leaves every other address alone. -/
theorem Memory.read_write (m : Memory) (h : m.wf) (a : Nat) (v : Byte) (b : Nat) :
    (m.write a v).read b = if b = a then v else m.read b :=
  Memory.read_write_of_pairwise m h.1 a v b

/-- Where a cell of a written memory comes from. -/
theorem Memory.mem_write (m : Memory) (a : Nat) (v : Byte) (c : Host.Cell) (hc : c ∈ m.write a v) :
    c ∈ m ∨ (c = (a, v) ∧ v ≠ unlistedByte a) := by
  induction m with
  | nil =>
    simp only [Memory.write] at hc
    split at hc <;> simp_all
  | cons d m ih =>
    simp only [Memory.write] at hc
    split at hc
    · split at hc
      · exact Or.inl hc
      · simp_all; tauto
    · split at hc
      · split at hc
        · exact Or.inl (List.mem_cons_of_mem _ hc)
        · simp_all; tauto
      · rcases List.mem_cons.1 hc with rfl | hc
        · simp
        · rcases ih hc with h | h
          · simp [h]
          · exact Or.inr h

/-- A write keeps the addresses rising. -/
theorem Memory.pairwise_write (m : Memory) (h : m.Pairwise fun c d => c.1 < d.1) (a : Nat) (v : Byte) :
    (m.write a v).Pairwise fun c d => c.1 < d.1 := by
  induction m with
  | nil => simp only [Memory.write]; split <;> simp
  | cons c m ih =>
    have h' := List.pairwise_cons.1 h
    simp only [Memory.write]
    split
    · rename_i hac
      split
      · exact h
      · refine List.pairwise_cons.2 ⟨fun d hd => ?_, h⟩
        rcases List.mem_cons.1 hd with rfl | hd
        · exact hac
        · exact Nat.lt_trans hac (h'.1 d hd)
    · split
      · rename_i _ hac
        split
        · exact h'.2
        · exact List.pairwise_cons.2 ⟨fun d hd => hac ▸ h'.1 d hd, h'.2⟩
      · rename_i hna hne
        refine List.pairwise_cons.2 ⟨fun d hd => ?_, ih h'.2⟩
        rcases Memory.mem_write m a v d hd with hd | ⟨rfl, -⟩
        · exact h'.1 d hd
        · omega

/-- A write inside memory keeps the canonical form. -/
theorem Memory.wf_write (m : Memory) (h : m.wf) (a : Nat) (v : Byte) (ha : a < Config.memSize) : (m.write a v).wf := by
  refine ⟨Memory.pairwise_write m h.1 a v, fun c hc => ?_⟩
  rcases Memory.mem_write m a v c hc with hc | ⟨rfl, hv⟩
  · exact h.2 c hc
  · exact ⟨ha, hv⟩

/-- A load inside memory keeps the canonical form. -/
theorem Memory.wf_load (bs : List Byte) (m : Memory) (h : m.wf) (a : Nat) (ha : a + bs.length ≤ Config.memSize) :
    (m.load a bs).wf := by
  induction bs generalizing m a with
  | nil => exact h
  | cons b bs ih =>
    simp only [List.length_cons] at ha
    exact ih _ (Memory.wf_write m h a b (by omega)) (a + 1) (by omega)

/-- A read after a load: the byte loaded there, the old byte everywhere else. -/
theorem Memory.read_load (bs : List Byte) (m : Memory) (h : m.Pairwise fun c d => c.1 < d.1) (a b : Nat) :
    (m.load a bs).read b = if h : a ≤ b ∧ b - a < bs.length then bs[b - a]'h.2 else m.read b := by
  induction bs generalizing m a with
  | nil => simp [Memory.load]
  | cons v bs ih =>
    rw [Memory.load, ih _ (Memory.pairwise_write m h a v), Memory.read_write_of_pairwise m h]
    by_cases hb : b = a
    · subst hb
      simp [show ¬(b + 1 ≤ b) by omega]
    · by_cases hab : a + 1 ≤ b ∧ b - (a + 1) < bs.length
      · have h2 : a ≤ b ∧ b - a < (v :: bs).length := ⟨by omega, by simp; omega⟩
        rw [dif_pos hab, dif_pos h2]
        have h3 : b - a = (b - (a + 1)) + 1 := by omega
        simp only [h3, List.getElem_cons_succ]
      · have h2 : ¬(a ≤ b ∧ b - a < (v :: bs).length) := by
          simp only [List.length_cons]
          omega
        rw [dif_neg hab, dif_neg h2, if_neg hb]

/-- Every loaded byte is read back where it was loaded. -/
theorem Memory.read_load_inside (bs : List Byte) (m : Memory) (h : m.Pairwise fun c d => c.1 < d.1) (a j : Nat)
    (hj : j < bs.length) : (m.load a bs).read (a + j) = bs[j] := by
  rw [Memory.read_load bs m h, dif_pos ⟨Nat.le_add_right a j, by omega⟩]
  congr 1
  omega

/-- An address outside the loaded range reads as before. -/
theorem Memory.read_load_outside (bs : List Byte) (m : Memory) (h : m.Pairwise fun c d => c.1 < d.1) (a b : Nat)
    (hb : b < a ∨ a + bs.length ≤ b) : (m.load a bs).read b = m.read b := by
  rw [Memory.read_load bs m h, dif_neg (by omega)]

/-- Outside the font an unlisted address reads as 0 (R39). -/
theorem unlistedByte_outside (a : Nat) (h : a < 0x050 ∨ 0x0A0 ≤ a) : unlistedByte a = 0 := by
  unfold unlistedByte
  rw [dif_neg]
  simp only [Config.fontBase, Config.fontSize]
  omega

/-- The font's bytes (R39, R55). -/
theorem unlistedByte_font (i : Fin 80) : unlistedByte (0x050 + i.val) = Config.fontTable i := by
  have h := i.isLt
  unfold unlistedByte
  rw [dif_pos (by simp only [Config.fontBase, Config.fontSize]; omega)]
  congr 1
  exact Fin.ext (by simp [Config.fontBase])

/-- Memory after reset lists nothing and has the canonical form. -/
theorem Memory.wf_nil : Memory.wf [] := by simp [Memory.wf]

end Sys2Proof.Machine
end

