-- ==== Sys2Proof/Laws/State.lean ====
section
/-! SUPPORT. One lemma per update of the state and per field or accessor: what the update leaves and what it writes, so
that no later proof unfolds a record update. -/

namespace Sys2Proof.Machine

variable (s : State)

/-! ### setMem -/

@[simp] theorem State.setMem_v (m : Memory) : (s.setMem m).v = s.v := rfl
@[simp] theorem State.setMem_index (m : Memory) : (s.setMem m).index = s.index := rfl
@[simp] theorem State.setMem_pc (m : Memory) : (s.setMem m).pc = s.pc := rfl
@[simp] theorem State.setMem_stack (m : Memory) : (s.setMem m).stack = s.stack := rfl
@[simp] theorem State.setMem_sp (m : Memory) : (s.setMem m).sp = s.sp := rfl
@[simp] theorem State.setMem_dt (m : Memory) : (s.setMem m).dt = s.dt := rfl
@[simp] theorem State.setMem_st (m : Memory) : (s.setMem m).st = s.st := rfl
@[simp] theorem State.setMem_keys (m : Memory) : (s.setMem m).keys = s.keys := rfl
@[simp] theorem State.setMem_fb (m : Memory) : (s.setMem m).fb = s.fb := rfl
@[simp] theorem State.setMem_mem (m : Memory) : (s.setMem m).mem = m := rfl
@[simp] theorem State.setMem_ir (m : Memory) : (s.setMem m).ir = s.ir := rfl
@[simp] theorem State.setMem_halted (m : Memory) : (s.setMem m).halted = s.halted := rfl
@[simp] theorem State.setMem_fault (m : Memory) : (s.setMem m).fault = s.fault := rfl
@[simp] theorem State.setMem_draws (m : Memory) : (s.setMem m).draws = s.draws := rfl
@[simp] theorem State.setMem_readV (m : Memory) (r : Reg) : (s.setMem m).readV r = s.readV r := rfl
@[simp] theorem State.setMem_stackAt (m : Memory) (k : Nat) : (s.setMem m).stackAt k = s.stackAt k := rfl
@[simp] theorem State.setMem_keyAt (m : Memory) (k : Nat) : (s.setMem m).keyAt k = s.keyAt k := rfl
@[simp] theorem State.setMem_pixelAt (m : Memory) (row col : Nat) : (s.setMem m).pixelAt row col = s.pixelAt row col := rfl

/-! ### writeV -/

@[simp] theorem State.writeV_v (x : Reg) (b : Byte) : (s.writeV x b).v = s.v.set x.val b := rfl
@[simp] theorem State.writeV_index (x : Reg) (b : Byte) : (s.writeV x b).index = s.index := rfl
@[simp] theorem State.writeV_pc (x : Reg) (b : Byte) : (s.writeV x b).pc = s.pc := rfl
@[simp] theorem State.writeV_stack (x : Reg) (b : Byte) : (s.writeV x b).stack = s.stack := rfl
@[simp] theorem State.writeV_sp (x : Reg) (b : Byte) : (s.writeV x b).sp = s.sp := rfl
@[simp] theorem State.writeV_dt (x : Reg) (b : Byte) : (s.writeV x b).dt = s.dt := rfl
@[simp] theorem State.writeV_st (x : Reg) (b : Byte) : (s.writeV x b).st = s.st := rfl
@[simp] theorem State.writeV_keys (x : Reg) (b : Byte) : (s.writeV x b).keys = s.keys := rfl
@[simp] theorem State.writeV_fb (x : Reg) (b : Byte) : (s.writeV x b).fb = s.fb := rfl
@[simp] theorem State.writeV_mem (x : Reg) (b : Byte) : (s.writeV x b).mem = s.mem := rfl
@[simp] theorem State.writeV_ir (x : Reg) (b : Byte) : (s.writeV x b).ir = s.ir := rfl
@[simp] theorem State.writeV_halted (x : Reg) (b : Byte) : (s.writeV x b).halted = s.halted := rfl
@[simp] theorem State.writeV_fault (x : Reg) (b : Byte) : (s.writeV x b).fault = s.fault := rfl
@[simp] theorem State.writeV_draws (x : Reg) (b : Byte) : (s.writeV x b).draws = s.draws := rfl
@[simp] theorem State.writeV_stackAt (x : Reg) (b : Byte) (k : Nat) : (s.writeV x b).stackAt k = s.stackAt k := rfl
@[simp] theorem State.writeV_keyAt (x : Reg) (b : Byte) (k : Nat) : (s.writeV x b).keyAt k = s.keyAt k := rfl
@[simp] theorem State.writeV_pixelAt (x : Reg) (b : Byte) (row col : Nat) : (s.writeV x b).pixelAt row col = s.pixelAt row col := rfl
@[simp] theorem State.writeV_byteAt (x : Reg) (b : Byte) (i : Nat) : (s.writeV x b).byteAt i = s.byteAt i := rfl

/-! ### setIndex -/

@[simp] theorem State.setIndex_v (a : Word) : (s.setIndex a).v = s.v := rfl
@[simp] theorem State.setIndex_index (a : Word) : (s.setIndex a).index = a := rfl
@[simp] theorem State.setIndex_pc (a : Word) : (s.setIndex a).pc = s.pc := rfl
@[simp] theorem State.setIndex_stack (a : Word) : (s.setIndex a).stack = s.stack := rfl
@[simp] theorem State.setIndex_sp (a : Word) : (s.setIndex a).sp = s.sp := rfl
@[simp] theorem State.setIndex_dt (a : Word) : (s.setIndex a).dt = s.dt := rfl
@[simp] theorem State.setIndex_st (a : Word) : (s.setIndex a).st = s.st := rfl
@[simp] theorem State.setIndex_keys (a : Word) : (s.setIndex a).keys = s.keys := rfl
@[simp] theorem State.setIndex_fb (a : Word) : (s.setIndex a).fb = s.fb := rfl
@[simp] theorem State.setIndex_mem (a : Word) : (s.setIndex a).mem = s.mem := rfl
@[simp] theorem State.setIndex_ir (a : Word) : (s.setIndex a).ir = s.ir := rfl
@[simp] theorem State.setIndex_halted (a : Word) : (s.setIndex a).halted = s.halted := rfl
@[simp] theorem State.setIndex_fault (a : Word) : (s.setIndex a).fault = s.fault := rfl
@[simp] theorem State.setIndex_draws (a : Word) : (s.setIndex a).draws = s.draws := rfl
@[simp] theorem State.setIndex_readV (a : Word) (r : Reg) : (s.setIndex a).readV r = s.readV r := rfl
@[simp] theorem State.setIndex_stackAt (a : Word) (k : Nat) : (s.setIndex a).stackAt k = s.stackAt k := rfl
@[simp] theorem State.setIndex_keyAt (a : Word) (k : Nat) : (s.setIndex a).keyAt k = s.keyAt k := rfl
@[simp] theorem State.setIndex_pixelAt (a : Word) (row col : Nat) : (s.setIndex a).pixelAt row col = s.pixelAt row col := rfl
@[simp] theorem State.setIndex_byteAt (a : Word) (i : Nat) : (s.setIndex a).byteAt i = s.byteAt i := rfl

/-! ### setPc -/

@[simp] theorem State.setPc_v (a : Word) : (s.setPc a).v = s.v := rfl
@[simp] theorem State.setPc_index (a : Word) : (s.setPc a).index = s.index := rfl
@[simp] theorem State.setPc_pc (a : Word) : (s.setPc a).pc = a := rfl
@[simp] theorem State.setPc_stack (a : Word) : (s.setPc a).stack = s.stack := rfl
@[simp] theorem State.setPc_sp (a : Word) : (s.setPc a).sp = s.sp := rfl
@[simp] theorem State.setPc_dt (a : Word) : (s.setPc a).dt = s.dt := rfl
@[simp] theorem State.setPc_st (a : Word) : (s.setPc a).st = s.st := rfl
@[simp] theorem State.setPc_keys (a : Word) : (s.setPc a).keys = s.keys := rfl
@[simp] theorem State.setPc_fb (a : Word) : (s.setPc a).fb = s.fb := rfl
@[simp] theorem State.setPc_mem (a : Word) : (s.setPc a).mem = s.mem := rfl
@[simp] theorem State.setPc_ir (a : Word) : (s.setPc a).ir = s.ir := rfl
@[simp] theorem State.setPc_halted (a : Word) : (s.setPc a).halted = s.halted := rfl
@[simp] theorem State.setPc_fault (a : Word) : (s.setPc a).fault = s.fault := rfl
@[simp] theorem State.setPc_draws (a : Word) : (s.setPc a).draws = s.draws := rfl
@[simp] theorem State.setPc_readV (a : Word) (r : Reg) : (s.setPc a).readV r = s.readV r := rfl
@[simp] theorem State.setPc_stackAt (a : Word) (k : Nat) : (s.setPc a).stackAt k = s.stackAt k := rfl
@[simp] theorem State.setPc_keyAt (a : Word) (k : Nat) : (s.setPc a).keyAt k = s.keyAt k := rfl
@[simp] theorem State.setPc_pixelAt (a : Word) (row col : Nat) : (s.setPc a).pixelAt row col = s.pixelAt row col := rfl
@[simp] theorem State.setPc_byteAt (a : Word) (i : Nat) : (s.setPc a).byteAt i = s.byteAt i := rfl

/-! ### setStack -/

@[simp] theorem State.setStack_v (k : Nat) (a : Word) : (s.setStack k a).v = s.v := rfl
@[simp] theorem State.setStack_index (k : Nat) (a : Word) : (s.setStack k a).index = s.index := rfl
@[simp] theorem State.setStack_pc (k : Nat) (a : Word) : (s.setStack k a).pc = s.pc := rfl
@[simp] theorem State.setStack_stack (k : Nat) (a : Word) : (s.setStack k a).stack = if h : k < 16 then s.stack.set k a else s.stack := rfl
@[simp] theorem State.setStack_sp (k : Nat) (a : Word) : (s.setStack k a).sp = s.sp := rfl
@[simp] theorem State.setStack_dt (k : Nat) (a : Word) : (s.setStack k a).dt = s.dt := rfl
@[simp] theorem State.setStack_st (k : Nat) (a : Word) : (s.setStack k a).st = s.st := rfl
@[simp] theorem State.setStack_keys (k : Nat) (a : Word) : (s.setStack k a).keys = s.keys := rfl
@[simp] theorem State.setStack_fb (k : Nat) (a : Word) : (s.setStack k a).fb = s.fb := rfl
@[simp] theorem State.setStack_mem (k : Nat) (a : Word) : (s.setStack k a).mem = s.mem := rfl
@[simp] theorem State.setStack_ir (k : Nat) (a : Word) : (s.setStack k a).ir = s.ir := rfl
@[simp] theorem State.setStack_halted (k : Nat) (a : Word) : (s.setStack k a).halted = s.halted := rfl
@[simp] theorem State.setStack_fault (k : Nat) (a : Word) : (s.setStack k a).fault = s.fault := rfl
@[simp] theorem State.setStack_draws (k : Nat) (a : Word) : (s.setStack k a).draws = s.draws := rfl
@[simp] theorem State.setStack_readV (k : Nat) (a : Word) (r : Reg) : (s.setStack k a).readV r = s.readV r := rfl
@[simp] theorem State.setStack_keyAt (k : Nat) (a : Word) (j : Nat) : (s.setStack k a).keyAt j = s.keyAt j := rfl
@[simp] theorem State.setStack_pixelAt (k : Nat) (a : Word) (row col : Nat) : (s.setStack k a).pixelAt row col = s.pixelAt row col := rfl
@[simp] theorem State.setStack_byteAt (k : Nat) (a : Word) (i : Nat) : (s.setStack k a).byteAt i = s.byteAt i := rfl

/-! ### setSp -/

@[simp] theorem State.setSp_v (n : Byte) : (s.setSp n).v = s.v := rfl
@[simp] theorem State.setSp_index (n : Byte) : (s.setSp n).index = s.index := rfl
@[simp] theorem State.setSp_pc (n : Byte) : (s.setSp n).pc = s.pc := rfl
@[simp] theorem State.setSp_stack (n : Byte) : (s.setSp n).stack = s.stack := rfl
@[simp] theorem State.setSp_sp (n : Byte) : (s.setSp n).sp = n := rfl
@[simp] theorem State.setSp_dt (n : Byte) : (s.setSp n).dt = s.dt := rfl
@[simp] theorem State.setSp_st (n : Byte) : (s.setSp n).st = s.st := rfl
@[simp] theorem State.setSp_keys (n : Byte) : (s.setSp n).keys = s.keys := rfl
@[simp] theorem State.setSp_fb (n : Byte) : (s.setSp n).fb = s.fb := rfl
@[simp] theorem State.setSp_mem (n : Byte) : (s.setSp n).mem = s.mem := rfl
@[simp] theorem State.setSp_ir (n : Byte) : (s.setSp n).ir = s.ir := rfl
@[simp] theorem State.setSp_halted (n : Byte) : (s.setSp n).halted = s.halted := rfl
@[simp] theorem State.setSp_fault (n : Byte) : (s.setSp n).fault = s.fault := rfl
@[simp] theorem State.setSp_draws (n : Byte) : (s.setSp n).draws = s.draws := rfl
@[simp] theorem State.setSp_readV (n : Byte) (r : Reg) : (s.setSp n).readV r = s.readV r := rfl
@[simp] theorem State.setSp_stackAt (n : Byte) (k : Nat) : (s.setSp n).stackAt k = s.stackAt k := rfl
@[simp] theorem State.setSp_keyAt (n : Byte) (k : Nat) : (s.setSp n).keyAt k = s.keyAt k := rfl
@[simp] theorem State.setSp_pixelAt (n : Byte) (row col : Nat) : (s.setSp n).pixelAt row col = s.pixelAt row col := rfl
@[simp] theorem State.setSp_byteAt (n : Byte) (i : Nat) : (s.setSp n).byteAt i = s.byteAt i := rfl

/-! ### setDt -/

@[simp] theorem State.setDt_v (b : Byte) : (s.setDt b).v = s.v := rfl
@[simp] theorem State.setDt_index (b : Byte) : (s.setDt b).index = s.index := rfl
@[simp] theorem State.setDt_pc (b : Byte) : (s.setDt b).pc = s.pc := rfl
@[simp] theorem State.setDt_stack (b : Byte) : (s.setDt b).stack = s.stack := rfl
@[simp] theorem State.setDt_sp (b : Byte) : (s.setDt b).sp = s.sp := rfl
@[simp] theorem State.setDt_dt (b : Byte) : (s.setDt b).dt = b := rfl
@[simp] theorem State.setDt_st (b : Byte) : (s.setDt b).st = s.st := rfl
@[simp] theorem State.setDt_keys (b : Byte) : (s.setDt b).keys = s.keys := rfl
@[simp] theorem State.setDt_fb (b : Byte) : (s.setDt b).fb = s.fb := rfl
@[simp] theorem State.setDt_mem (b : Byte) : (s.setDt b).mem = s.mem := rfl
@[simp] theorem State.setDt_ir (b : Byte) : (s.setDt b).ir = s.ir := rfl
@[simp] theorem State.setDt_halted (b : Byte) : (s.setDt b).halted = s.halted := rfl
@[simp] theorem State.setDt_fault (b : Byte) : (s.setDt b).fault = s.fault := rfl
@[simp] theorem State.setDt_draws (b : Byte) : (s.setDt b).draws = s.draws := rfl
@[simp] theorem State.setDt_readV (b : Byte) (r : Reg) : (s.setDt b).readV r = s.readV r := rfl
@[simp] theorem State.setDt_stackAt (b : Byte) (k : Nat) : (s.setDt b).stackAt k = s.stackAt k := rfl
@[simp] theorem State.setDt_keyAt (b : Byte) (k : Nat) : (s.setDt b).keyAt k = s.keyAt k := rfl
@[simp] theorem State.setDt_pixelAt (b : Byte) (row col : Nat) : (s.setDt b).pixelAt row col = s.pixelAt row col := rfl
@[simp] theorem State.setDt_byteAt (b : Byte) (i : Nat) : (s.setDt b).byteAt i = s.byteAt i := rfl

/-! ### setSt -/

@[simp] theorem State.setSt_v (b : Byte) : (s.setSt b).v = s.v := rfl
@[simp] theorem State.setSt_index (b : Byte) : (s.setSt b).index = s.index := rfl
@[simp] theorem State.setSt_pc (b : Byte) : (s.setSt b).pc = s.pc := rfl
@[simp] theorem State.setSt_stack (b : Byte) : (s.setSt b).stack = s.stack := rfl
@[simp] theorem State.setSt_sp (b : Byte) : (s.setSt b).sp = s.sp := rfl
@[simp] theorem State.setSt_dt (b : Byte) : (s.setSt b).dt = s.dt := rfl
@[simp] theorem State.setSt_st (b : Byte) : (s.setSt b).st = b := rfl
@[simp] theorem State.setSt_keys (b : Byte) : (s.setSt b).keys = s.keys := rfl
@[simp] theorem State.setSt_fb (b : Byte) : (s.setSt b).fb = s.fb := rfl
@[simp] theorem State.setSt_mem (b : Byte) : (s.setSt b).mem = s.mem := rfl
@[simp] theorem State.setSt_ir (b : Byte) : (s.setSt b).ir = s.ir := rfl
@[simp] theorem State.setSt_halted (b : Byte) : (s.setSt b).halted = s.halted := rfl
@[simp] theorem State.setSt_fault (b : Byte) : (s.setSt b).fault = s.fault := rfl
@[simp] theorem State.setSt_draws (b : Byte) : (s.setSt b).draws = s.draws := rfl
@[simp] theorem State.setSt_readV (b : Byte) (r : Reg) : (s.setSt b).readV r = s.readV r := rfl
@[simp] theorem State.setSt_stackAt (b : Byte) (k : Nat) : (s.setSt b).stackAt k = s.stackAt k := rfl
@[simp] theorem State.setSt_keyAt (b : Byte) (k : Nat) : (s.setSt b).keyAt k = s.keyAt k := rfl
@[simp] theorem State.setSt_pixelAt (b : Byte) (row col : Nat) : (s.setSt b).pixelAt row col = s.pixelAt row col := rfl
@[simp] theorem State.setSt_byteAt (b : Byte) (i : Nat) : (s.setSt b).byteAt i = s.byteAt i := rfl

/-! ### setFb -/

@[simp] theorem State.setFb_v (f : Framebuffer) : (s.setFb f).v = s.v := rfl
@[simp] theorem State.setFb_index (f : Framebuffer) : (s.setFb f).index = s.index := rfl
@[simp] theorem State.setFb_pc (f : Framebuffer) : (s.setFb f).pc = s.pc := rfl
@[simp] theorem State.setFb_stack (f : Framebuffer) : (s.setFb f).stack = s.stack := rfl
@[simp] theorem State.setFb_sp (f : Framebuffer) : (s.setFb f).sp = s.sp := rfl
@[simp] theorem State.setFb_dt (f : Framebuffer) : (s.setFb f).dt = s.dt := rfl
@[simp] theorem State.setFb_st (f : Framebuffer) : (s.setFb f).st = s.st := rfl
@[simp] theorem State.setFb_keys (f : Framebuffer) : (s.setFb f).keys = s.keys := rfl
@[simp] theorem State.setFb_fb (f : Framebuffer) : (s.setFb f).fb = f := rfl
@[simp] theorem State.setFb_mem (f : Framebuffer) : (s.setFb f).mem = s.mem := rfl
@[simp] theorem State.setFb_ir (f : Framebuffer) : (s.setFb f).ir = s.ir := rfl
@[simp] theorem State.setFb_halted (f : Framebuffer) : (s.setFb f).halted = s.halted := rfl
@[simp] theorem State.setFb_fault (f : Framebuffer) : (s.setFb f).fault = s.fault := rfl
@[simp] theorem State.setFb_draws (f : Framebuffer) : (s.setFb f).draws = s.draws := rfl
@[simp] theorem State.setFb_readV (f : Framebuffer) (r : Reg) : (s.setFb f).readV r = s.readV r := rfl
@[simp] theorem State.setFb_stackAt (f : Framebuffer) (k : Nat) : (s.setFb f).stackAt k = s.stackAt k := rfl
@[simp] theorem State.setFb_keyAt (f : Framebuffer) (k : Nat) : (s.setFb f).keyAt k = s.keyAt k := rfl
@[simp] theorem State.setFb_byteAt (f : Framebuffer) (i : Nat) : (s.setFb f).byteAt i = s.byteAt i := rfl

/-! ### drawn -/

@[simp] theorem State.drawn_v : s.drawn.v = s.v := rfl
@[simp] theorem State.drawn_index : s.drawn.index = s.index := rfl
@[simp] theorem State.drawn_pc : s.drawn.pc = s.pc := rfl
@[simp] theorem State.drawn_stack : s.drawn.stack = s.stack := rfl
@[simp] theorem State.drawn_sp : s.drawn.sp = s.sp := rfl
@[simp] theorem State.drawn_dt : s.drawn.dt = s.dt := rfl
@[simp] theorem State.drawn_st : s.drawn.st = s.st := rfl
@[simp] theorem State.drawn_keys : s.drawn.keys = s.keys := rfl
@[simp] theorem State.drawn_fb : s.drawn.fb = s.fb := rfl
@[simp] theorem State.drawn_mem : s.drawn.mem = s.mem := rfl
@[simp] theorem State.drawn_ir : s.drawn.ir = s.ir := rfl
@[simp] theorem State.drawn_halted : s.drawn.halted = s.halted := rfl
@[simp] theorem State.drawn_fault : s.drawn.fault = s.fault := rfl
@[simp] theorem State.drawn_draws : s.drawn.draws = s.draws + 1 := rfl
@[simp] theorem State.drawn_readV (r : Reg) : s.drawn.readV r = s.readV r := rfl
@[simp] theorem State.drawn_stackAt (k : Nat) : s.drawn.stackAt k = s.stackAt k := rfl
@[simp] theorem State.drawn_keyAt (k : Nat) : s.drawn.keyAt k = s.keyAt k := rfl
@[simp] theorem State.drawn_pixelAt (row col : Nat) : s.drawn.pixelAt row col = s.pixelAt row col := rfl
@[simp] theorem State.drawn_byteAt (i : Nat) : s.drawn.byteAt i = s.byteAt i := rfl

/-! ### tick -/

@[simp] theorem State.tick_v : s.tick.v = s.v := rfl
@[simp] theorem State.tick_index : s.tick.index = s.index := rfl
@[simp] theorem State.tick_pc : s.tick.pc = s.pc := rfl
@[simp] theorem State.tick_stack : s.tick.stack = s.stack := rfl
@[simp] theorem State.tick_sp : s.tick.sp = s.sp := rfl
@[simp] theorem State.tick_dt : s.tick.dt = countDown s.dt := rfl
@[simp] theorem State.tick_st : s.tick.st = countDown s.st := rfl
@[simp] theorem State.tick_keys : s.tick.keys = s.keys := rfl
@[simp] theorem State.tick_fb : s.tick.fb = s.fb := rfl
@[simp] theorem State.tick_mem : s.tick.mem = s.mem := rfl
@[simp] theorem State.tick_ir : s.tick.ir = s.ir := rfl
@[simp] theorem State.tick_halted : s.tick.halted = s.halted := rfl
@[simp] theorem State.tick_fault : s.tick.fault = s.fault := rfl
@[simp] theorem State.tick_draws : s.tick.draws = s.draws := rfl
@[simp] theorem State.tick_readV (r : Reg) : s.tick.readV r = s.readV r := rfl
@[simp] theorem State.tick_stackAt (k : Nat) : s.tick.stackAt k = s.stackAt k := rfl
@[simp] theorem State.tick_keyAt (k : Nat) : s.tick.keyAt k = s.keyAt k := rfl
@[simp] theorem State.tick_pixelAt (row col : Nat) : s.tick.pixelAt row col = s.pixelAt row col := rfl
@[simp] theorem State.tick_byteAt (i : Nat) : s.tick.byteAt i = s.byteAt i := rfl

/-! ### fetched -/

@[simp] theorem State.fetched_v (w : Word) : (s.fetched w).v = s.v := rfl
@[simp] theorem State.fetched_index (w : Word) : (s.fetched w).index = s.index := rfl
@[simp] theorem State.fetched_pc (w : Word) : (s.fetched w).pc = s.pc + 2 := rfl
@[simp] theorem State.fetched_stack (w : Word) : (s.fetched w).stack = s.stack := rfl
@[simp] theorem State.fetched_sp (w : Word) : (s.fetched w).sp = s.sp := rfl
@[simp] theorem State.fetched_dt (w : Word) : (s.fetched w).dt = s.dt := rfl
@[simp] theorem State.fetched_st (w : Word) : (s.fetched w).st = s.st := rfl
@[simp] theorem State.fetched_keys (w : Word) : (s.fetched w).keys = s.keys := rfl
@[simp] theorem State.fetched_fb (w : Word) : (s.fetched w).fb = s.fb := rfl
@[simp] theorem State.fetched_mem (w : Word) : (s.fetched w).mem = s.mem := rfl
@[simp] theorem State.fetched_ir (w : Word) : (s.fetched w).ir = w := rfl
@[simp] theorem State.fetched_halted (w : Word) : (s.fetched w).halted = s.halted := rfl
@[simp] theorem State.fetched_fault (w : Word) : (s.fetched w).fault = s.fault := rfl
@[simp] theorem State.fetched_draws (w : Word) : (s.fetched w).draws = s.draws := rfl
@[simp] theorem State.fetched_readV (w : Word) (r : Reg) : (s.fetched w).readV r = s.readV r := rfl
@[simp] theorem State.fetched_stackAt (w : Word) (k : Nat) : (s.fetched w).stackAt k = s.stackAt k := rfl
@[simp] theorem State.fetched_keyAt (w : Word) (k : Nat) : (s.fetched w).keyAt k = s.keyAt k := rfl
@[simp] theorem State.fetched_pixelAt (w : Word) (row col : Nat) : (s.fetched w).pixelAt row col = s.pixelAt row col := rfl
@[simp] theorem State.fetched_byteAt (w : Word) (i : Nat) : (s.fetched w).byteAt i = s.byteAt i := rfl

/-! ### enterFault -/

@[simp] theorem State.enterFault_v (f : Fault) : (s.enterFault f).v = s.v := rfl
@[simp] theorem State.enterFault_index (f : Fault) : (s.enterFault f).index = s.index := rfl
@[simp] theorem State.enterFault_pc (f : Fault) : (s.enterFault f).pc = s.pc := rfl
@[simp] theorem State.enterFault_stack (f : Fault) : (s.enterFault f).stack = s.stack := rfl
@[simp] theorem State.enterFault_sp (f : Fault) : (s.enterFault f).sp = s.sp := rfl
@[simp] theorem State.enterFault_dt (f : Fault) : (s.enterFault f).dt = s.dt := rfl
@[simp] theorem State.enterFault_st (f : Fault) : (s.enterFault f).st = s.st := rfl
@[simp] theorem State.enterFault_keys (f : Fault) : (s.enterFault f).keys = s.keys := rfl
@[simp] theorem State.enterFault_fb (f : Fault) : (s.enterFault f).fb = s.fb := rfl
@[simp] theorem State.enterFault_mem (f : Fault) : (s.enterFault f).mem = s.mem := rfl
@[simp] theorem State.enterFault_ir (f : Fault) : (s.enterFault f).ir = s.ir := rfl
@[simp] theorem State.enterFault_halted (f : Fault) : (s.enterFault f).halted = true := rfl
@[simp] theorem State.enterFault_fault (f : Fault) : (s.enterFault f).fault = some f := rfl
@[simp] theorem State.enterFault_draws (f : Fault) : (s.enterFault f).draws = s.draws := rfl
@[simp] theorem State.enterFault_readV (f : Fault) (r : Reg) : (s.enterFault f).readV r = s.readV r := rfl
@[simp] theorem State.enterFault_stackAt (f : Fault) (k : Nat) : (s.enterFault f).stackAt k = s.stackAt k := rfl
@[simp] theorem State.enterFault_keyAt (f : Fault) (k : Nat) : (s.enterFault f).keyAt k = s.keyAt k := rfl
@[simp] theorem State.enterFault_pixelAt (f : Fault) (row col : Nat) : (s.enterFault f).pixelAt row col = s.pixelAt row col := rfl
@[simp] theorem State.enterFault_byteAt (f : Fault) (i : Nat) : (s.enterFault f).byteAt i = s.byteAt i := rfl

/-! ### setKeys -/

@[simp] theorem State.setKeys_v (k : Keypad) : (s.setKeys k).v = s.v := rfl
@[simp] theorem State.setKeys_index (k : Keypad) : (s.setKeys k).index = s.index := rfl
@[simp] theorem State.setKeys_pc (k : Keypad) : (s.setKeys k).pc = s.pc := rfl
@[simp] theorem State.setKeys_stack (k : Keypad) : (s.setKeys k).stack = s.stack := rfl
@[simp] theorem State.setKeys_sp (k : Keypad) : (s.setKeys k).sp = s.sp := rfl
@[simp] theorem State.setKeys_dt (k : Keypad) : (s.setKeys k).dt = s.dt := rfl
@[simp] theorem State.setKeys_st (k : Keypad) : (s.setKeys k).st = s.st := rfl
@[simp] theorem State.setKeys_keys (k : Keypad) : (s.setKeys k).keys = k := rfl
@[simp] theorem State.setKeys_fb (k : Keypad) : (s.setKeys k).fb = s.fb := rfl
@[simp] theorem State.setKeys_mem (k : Keypad) : (s.setKeys k).mem = s.mem := rfl
@[simp] theorem State.setKeys_ir (k : Keypad) : (s.setKeys k).ir = s.ir := rfl
@[simp] theorem State.setKeys_halted (k : Keypad) : (s.setKeys k).halted = s.halted := rfl
@[simp] theorem State.setKeys_fault (k : Keypad) : (s.setKeys k).fault = s.fault := rfl
@[simp] theorem State.setKeys_draws (k : Keypad) : (s.setKeys k).draws = s.draws := rfl
@[simp] theorem State.setKeys_readV (k : Keypad) (r : Reg) : (s.setKeys k).readV r = s.readV r := rfl
@[simp] theorem State.setKeys_stackAt (k : Keypad) (j : Nat) : (s.setKeys k).stackAt j = s.stackAt j := rfl
@[simp] theorem State.setKeys_pixelAt (k : Keypad) (row col : Nat) : (s.setKeys k).pixelAt row col = s.pixelAt row col := rfl
@[simp] theorem State.setKeys_byteAt (k : Keypad) (i : Nat) : (s.setKeys k).byteAt i = s.byteAt i := rfl

/-! ### Accessors of the written part -/

theorem State.writeV_readV (x : Reg) (b : Byte) (r : Reg) :
    (s.writeV x b).readV r = if r = x then b else s.readV r := by
  simp only [State.readV, State.writeV, Vector.getElem_set, Fin.val_inj, eq_comm]

@[simp] theorem State.writeV_readV_self (x : Reg) (b : Byte) : (s.writeV x b).readV x = b := by
  simp [State.writeV_readV]

theorem State.writeV_readV_ne {x r : Reg} (b : Byte) (h : r ≠ x) : (s.writeV x b).readV r = s.readV r := by
  simp [State.writeV_readV, h]

@[simp] theorem State.setMem_byteAt (m : Memory) (a : Nat) : (s.setMem m).byteAt a = m.read a := rfl

@[simp] theorem State.setFb_pixelAt (f : Framebuffer) (r c : Nat) : (s.setFb f).pixelAt r c = Framebuffer.pixel f r c := rfl

theorem State.setStack_stackAt (k : Nat) (a : Word) (j : Nat) :
    (s.setStack k a).stackAt j = if j = k ∧ k < 16 then a else s.stackAt j := by
  unfold State.stackAt State.setStack
  by_cases hj : j < 16
  · by_cases hk : k < 16
    · simp only [hj, hk, dif_pos, Vector.getElem_set, and_true, eq_comm]
    · simp [hj, hk]
  · have : ¬(j = k ∧ k < 16) := by omega
    simp [hj, this]

/-- Register writes to one register: the later stands (R11). -/
@[simp] theorem State.writeV_writeV_self (x : Reg) (a b : Byte) : (s.writeV x a).writeV x b = s.writeV x b := by
  simp [State.writeV, Vector.set_set]

/-- Two states with the same fields are the same state. -/
theorem State.ext_fields {s t : State} (hv : s.v = t.v) (hi : s.index = t.index) (hpc : s.pc = t.pc)
    (hst : s.stack = t.stack) (hsp : s.sp = t.sp) (hdt : s.dt = t.dt) (hs : s.st = t.st) (hk : s.keys = t.keys)
    (hfb : s.fb = t.fb) (hm : s.mem = t.mem) (hir : s.ir = t.ir) (hh : s.halted = t.halted) (hf : s.fault = t.fault)
    (hd : s.draws = t.draws) : s = t := by
  cases s; cases t; simp_all

end Sys2Proof.Machine
end

