-- ==== Sys2Proof/Laws/Ops.lean ====
section
/-! SUPPORT. One lemma per shared operation that says what it does: stack, keypad, framebuffer, timers, register lists,
sprites, faults. Later proofs cite these and do not unfold the operations. -/

namespace Sys2Proof.Machine

/-! ### Timers -/

/-- A timer counts down by one and stops at 0 (R94). -/
theorem countDown_toNat (b : Byte) : (countDown b).toNat = b.toNat - 1 := by
  unfold countDown
  split
  · simp_all
  · rename_i h
    have h0 : b.toNat ≠ 0 := fun h0 => h (by apply BitVec.eq_of_toNat_eq; simpa using h0)
    rw [BitVec.toNat_sub_of_le]
    · rfl
    · rw [BitVec.le_def]
      simpa using Nat.one_le_iff_ne_zero.2 h0

@[simp] theorem countDown_zero : countDown 0 = 0 := rfl

/-! ### Keypad -/

/-- A pressed key is found exactly when it is the least one (R172). -/
theorem State.firstKey_eq_some (s : State) (k : Nat) :
    s.firstKey = some k ↔ k < 16 ∧ s.keyAt k = true ∧ ∀ j, j < k → s.keyAt j = false := by
  unfold State.firstKey
  rw [List.find?_range_eq_some]
  simp only [List.mem_range, Bool.not_eq_true']
  tauto

/-- No key is found exactly when none is pressed (R172). -/
theorem State.firstKey_eq_none (s : State) : s.firstKey = none ↔ ∀ k, k < 16 → s.keyAt k = false := by
  simp [State.firstKey, List.find?_eq_none]

/-! ### Framebuffer -/

/-- Toggling one pixel of the grid (R33). -/
theorem Framebuffer.pixel_toggle (f : Framebuffer) (r c r' c' : Nat) (hr : r < 32) (hc : c < 64) :
    Framebuffer.pixel (Framebuffer.toggle f r c) r' c' =
      if r' = r ∧ c' = c then !Framebuffer.pixel f r' c' else Framebuffer.pixel f r' c' := by
  unfold Framebuffer.pixel Framebuffer.toggle
  rw [dif_pos (show r < 32 ∧ c < 64 from ⟨hr, hc⟩)]
  by_cases h : r' < 32 ∧ c' < 64
  · simp only [dif_pos h, Vector.getElem_set]
    by_cases h1 : r = r'
    · subst h1
      by_cases h2 : c = c'
      · subst h2; simp
      · simp [h2, Ne.symm h2]
    · simp [h1, Ne.symm h1]
  · have : ¬(r' = r ∧ c' = c) := by omega
    simp [h, this]

@[simp] theorem Framebuffer.pixel_blank (r c : Nat) : Framebuffer.pixel Framebuffer.blank r c = false := by
  unfold Framebuffer.pixel Framebuffer.blank
  split <;> simp

/-! ### The flag and the skip -/

/-- A flag write changes VF alone (R21). -/
theorem State.writeFlag_readV (s : State) (c : Bool) (r : Reg) :
    (s.writeFlag c).readV r = if r = vF then flagByte c else s.readV r := by
  simp [State.writeFlag, State.writeV_readV]

/-- Result, then flag: the flag stands when the destination is VF (R133). -/
theorem State.writeResultThenFlag_readV (s : State) (x : Reg) (b : Byte) (c : Bool) (r : Reg) :
    (s.writeResultThenFlag x b c).readV r = if r = vF then flagByte c else if r = x then b else s.readV r := by
  simp [State.writeResultThenFlag, State.writeFlag_readV, State.writeV_readV]

/-- Flag, then result: the result stands when the destination is VF (R133). -/
theorem State.writeFlagThenResult_readV (s : State) (x : Reg) (b : Byte) (c : Bool) (r : Reg) :
    (s.writeFlagThenResult x b c).readV r = if r = x then b else if r = vF then flagByte c else s.readV r := by
  simp [State.writeFlagThenResult, State.writeFlag_readV, State.writeV_readV]

/-- A flag write changes the register file alone. -/
theorem State.writeFlag_eq (s : State) (c : Bool) : ∃ v, s.writeFlag c = { s with v := v } := ⟨_, rfl⟩

/-- Result, then flag: the register file alone changes. -/
theorem State.writeResultThenFlag_eq (s : State) (x : Reg) (b : Byte) (c : Bool) :
    ∃ v, s.writeResultThenFlag x b c = { s with v := v } := ⟨_, rfl⟩

/-- Flag, then result: the register file alone changes. -/
theorem State.writeFlagThenResult_eq (s : State) (x : Reg) (b : Byte) (c : Bool) :
    ∃ v, s.writeFlagThenResult x b c = { s with v := v } := ⟨_, rfl⟩

/-- A skip changes `pc` alone, by 2 when its condition holds (R109). -/
theorem State.skipIf_eq (s : State) (c : Bool) : s.skipIf c = s.setPc (if c then s.pc + 2 else s.pc) := by
  cases c <;> rfl

/-! ### Register lists -/

@[simp] theorem mem_regsUpTo (x r : Reg) : r ∈ regsUpTo x ↔ r ≤ x := by simp [regsUpTo]

/-- A load of registers changes the register file alone. -/
theorem loadRegs_eq (s : State) (rs : List Reg) : ∃ v, loadRegs s rs = { s with v := v } := by
  unfold loadRegs
  suffices h : ∀ t : State, (∃ v, t = { s with v := v }) →
      ∃ v, rs.foldl (fun t r => t.writeV r (s.byteAt (effectiveAddress s r.val))) t = { s with v := v } from
    h s ⟨s.v, rfl⟩
  induction rs with
  | nil => exact fun t ht => ht
  | cons r rs ih =>
    rintro t ⟨v, rfl⟩
    exact ih _ ⟨_, rfl⟩

/-- What a load of registers puts into each (R145). -/
theorem loadRegs_readV (s : State) (rs : List Reg) (r : Reg) :
    (loadRegs s rs).readV r = if r ∈ rs then s.byteAt (effectiveAddress s r.val) else s.readV r := by
  unfold loadRegs
  suffices h : ∀ t : State,
      (rs.foldl (fun t r => t.writeV r (s.byteAt (effectiveAddress s r.val))) t).readV r =
        if r ∈ rs then s.byteAt (effectiveAddress s r.val) else t.readV r from h s
  induction rs with
  | nil => simp
  | cons q rs ih =>
    intro t
    rw [List.foldl_cons, ih, State.writeV_readV]
    by_cases hq : r = q <;> by_cases hr : r ∈ rs <;> simp_all

/-- A store of registers leaves every address it does not store to alone (R144). -/
theorem storeRegs_read_other (s : State) (rs : List Reg) (m : Memory) (h : m.Pairwise fun c d => c.1 < d.1) (a : Nat)
    (ha : ∀ r ∈ rs, a ≠ effectiveAddress s r.val) : (storeRegs s rs m).read a = m.read a := by
  unfold storeRegs
  induction rs generalizing m with
  | nil => rfl
  | cons q rs ih =>
    rw [List.foldl_cons, ih _ (Memory.pairwise_write m h _ _) fun r hr => ha r (by simp [hr]),
      Memory.read_write_of_pairwise m h, if_neg (ha q (by simp))]

/-- A store of registers puts each register's byte at its address (R144). -/
theorem storeRegs_read_self (s : State) (rs : List Reg) (m : Memory) (h : m.Pairwise fun c d => c.1 < d.1) (r : Reg)
    (hr : r ∈ rs) : (storeRegs s rs m).read (effectiveAddress s r.val) = s.readV r := by
  unfold storeRegs
  induction rs generalizing m with
  | nil => simp at hr
  | cons q rs ih =>
    have h' := Memory.pairwise_write m h (effectiveAddress s q.val) (s.readV q)
    rw [List.foldl_cons]
    by_cases hrs : r ∈ rs
    · exact ih _ h' hrs
    · have hq : r = q := by simpa [hrs] using hr
      subst hq
      refine (storeRegs_read_other s rs _ h' _ fun q hq he => hrs ?_).trans ?_
      · have hv : r = q := Fin.ext (by simpa [effectiveAddress] using he)
        exact hv ▸ hq
      · rw [Memory.read_write_of_pairwise m h, if_pos rfl]

/-- What every address reads after V0 to Vx are stored (R144). -/
theorem storeRegs_upTo_read (s : State) (x : Reg) (m : Memory) (h : m.Pairwise fun c d => c.1 < d.1) (a : Nat) :
    (storeRegs s (regsUpTo x) m).read a =
      if h : s.index.toNat ≤ a ∧ a ≤ s.index.toNat + x.val then s.readV ⟨a - s.index.toNat, by omega⟩ else m.read a := by
  split
  · rename_i hc
    obtain ⟨k, rfl⟩ := Nat.exists_eq_add_of_le hc.1
    have hk : k ≤ x.val := Nat.le_of_add_le_add_left hc.2
    have := storeRegs_read_self s (regsUpTo x) m h ⟨k, Nat.lt_of_le_of_lt hk x.isLt⟩ ((mem_regsUpTo x _).2 hk)
    simpa only [effectiveAddress, Nat.add_sub_cancel_left] using this
  · rename_i hc
    refine storeRegs_read_other s _ _ h a fun r hr => ?_
    have : r.val ≤ x.val := (mem_regsUpTo x r).1 hr
    simp only [effectiveAddress]
    omega

/-- What every address reads after the three digits are stored (R143). -/
theorem decimalDigits_load_read (m : Memory) (h : m.Pairwise fun c d => c.1 < d.1) (i : Nat) (b : Byte) (a : Nat) :
    (m.load i (decimalDigits b)).read a =
      if a = i then BitVec.ofNat 8 (b.toNat / 100)
      else if a = i + 1 then BitVec.ofNat 8 (b.toNat / 10 % 10)
      else if a = i + 2 then BitVec.ofNat 8 (b.toNat % 10)
      else m.read a := by
  have h1 := Memory.pairwise_write m h i (BitVec.ofNat 8 (b.toNat / 100))
  have h2 := Memory.pairwise_write _ h1 (i + 1) (BitVec.ofNat 8 (b.toNat / 10 % 10))
  rw [decimalDigits, Memory.load, Memory.load, Memory.load, Memory.load, Memory.read_write_of_pairwise _ h2,
    Memory.read_write_of_pairwise _ h1, Memory.read_write_of_pairwise m h]
  split_ifs <;> first | rfl | omega

/-- A store of registers inside memory keeps the canonical form. -/
theorem storeRegs_wf (s : State) (rs : List Reg) (m : Memory) (h : m.wf)
    (hr : ∀ r ∈ rs, effectiveAddress s r.val < Config.memSize) : (storeRegs s rs m).wf := by
  unfold storeRegs
  induction rs generalizing m with
  | nil => exact h
  | cons q rs ih =>
    exact ih _ (Memory.wf_write m h _ _ (hr q (by simp))) fun r hrs => hr r (by simp [hrs])

/-! ### Sprites -/

/-- Pass 1 finds nothing in a row exactly when its byte is in memory and its set bits land on the grid (R161). -/
theorem rowCheck_eq_none (s : State) (xPos yPos r : Nat) :
    rowCheck s xPos yPos r = none ↔ effectiveAddress s r ≤ 0xFFF ∧
      ∀ c, c < 8 → spriteBit (spriteByte s r) c = true → xPos + c ≤ 63 ∧ yPos + r ≤ 31 := by
  unfold rowCheck firstOutside inMemory
  by_cases h : effectiveAddress s r ≤ 0xFFF
  · simp only [h, decide_true, if_true, Option.map_eq_none_iff, List.find?_eq_none, List.mem_range, true_and]
    refine forall_congr' fun c => imp_congr_right fun _ => ?_
    cases spriteBit (spriteByte s r) c <;> simp
  · simp [h]

/-- Pass 1 finds nothing at all (R161). -/
theorem spriteCheck_eq_none (s : State) (xPos yPos n : Nat) :
    spriteCheck s xPos yPos n = none ↔ ∀ r, r < n → rowCheck s xPos yPos r = none := by
  simp [spriteCheck, List.findSome?_eq_none_iff]

/-! ### Faults -/

@[simp] theorem endCycle_next (t : State) : endCycle (.next t) = .next t.tick := rfl
@[simp] theorem endCycle_fault (f : Fault) : endCycle (.fault f) = .fault f := rfl
@[simp] theorem endCycle_refused (r : Refusal) : endCycle (.refused r) = .refused r := rfl

/-- A cycle completes exactly when its execute step does, in the ticked state. -/
theorem endCycle_eq_next {o : Result} {t : State} (h : endCycle o = .next t) : ∃ u, o = .next u ∧ t = u.tick := by
  cases o with
  | next u => exact ⟨u, rfl, by simpa [endCycle, eq_comm] using h⟩
  | fault f => simp [endCycle] at h
  | refused r => simp [endCycle] at h

/-- A cycle faults after its execute step exactly when that step does. -/
theorem endCycle_eq_fault {o : Result} {f : Fault} (h : endCycle o = .fault f) : o = .fault f := by
  cases o <;> simp_all [endCycle]

/-- A raised fault names the instruction's address and word (R205). -/
theorem raise_eq (f : Word → Word → Fault) (s : State) : raise f s = .fault (f (s.pc - 2) s.ir) := rfl

end Sys2Proof.Machine
end

