-- ==== Sys2Proof/Laws/Draw.lean ====
section
/-! SUPPORT. Pass 2 of the sprite draw (44_display.md R161): which pixels a row and a whole sprite toggle, and when there
is a collision. -/

namespace Sys2Proof.Machine

/-- The row of bits `b` at (`row`, `xPos`), its first `k` columns, has a set bit over pixel (`r`, `c`). -/
def rowCovers (b : Byte) (row xPos k r c : Nat) : Bool :=
  decide (r = row) && (List.range k).any fun j => decide (c = xPos + j) && spriteBit b j

/-- Some set bit among the first `k` columns lies on a pixel that is on. -/
def rowHits (f : Framebuffer) (b : Byte) (row xPos k : Nat) : Bool :=
  (List.range k).any fun j => spriteBit b j && Framebuffer.pixel f row (xPos + j)

/-- The first `n` rows of the sprite have a set bit over pixel (`r`, `c`). -/
def spriteCovers (s : State) (xPos yPos n r c : Nat) : Bool :=
  (List.range n).any fun q => rowCovers (spriteByte s q) (yPos + q) xPos 8 r c

/-- Some set bit of the first `n` rows lies on a pixel that is on. -/
def spriteHits (s : State) (xPos yPos n : Nat) : Bool :=
  (List.range n).any fun q => rowHits s.fb (spriteByte s q) (yPos + q) xPos 8

/-- No earlier column covers the next column's pixel. -/
theorem rowCovers_next (b : Byte) (row xPos k r : Nat) : rowCovers b row xPos k r (xPos + k) = false := by
  have h : (List.range k).any (fun j => decide (xPos + k = xPos + j) && spriteBit b j) = false := by
    rw [List.any_eq_false]
    intro j hj
    have := List.mem_range.1 hj
    simp only [Bool.and_eq_true, decide_eq_true_eq, not_and]
    omega
  rw [rowCovers, h, Bool.and_false]

/-- One drawn pixel (R33, R161). -/
theorem drawPixel_pixel (acc : Framebuffer × Bool) (row col r c : Nat) (hr : row < 32) (hc : col < 64) :
    Framebuffer.pixel (drawPixel acc row col).1 r c =
      (Framebuffer.pixel acc.1 r c ^^ (decide (r = row) && decide (c = col))) := by
  rw [drawPixel, Framebuffer.pixel_toggle _ _ _ _ _ hr hc]
  by_cases h : r = row ∧ c = col
  · simp [h]
  · have h' : (decide (r = row) && decide (c = col)) = false := by simpa using h
    rw [if_neg h, h', Bool.xor_false]

/-- A drawn pixel notes whether it was on (R161). -/
theorem drawPixel_collision (acc : Framebuffer × Bool) (row col : Nat) :
    (drawPixel acc row col).2 = (acc.2 || Framebuffer.pixel acc.1 row col) := rfl

/-- Of two columns at different places no pixel is covered by both. -/
theorem xor_rowCovers (b : Byte) (row xPos k r c : Nat) :
    (rowCovers b row xPos k r c ^^ (decide (r = row) && decide (c = xPos + k))) =
      (rowCovers b row xPos k r c || (decide (r = row) && decide (c = xPos + k))) := by
  by_cases hc : c = xPos + k
  · subst hc
    simp [rowCovers_next]
  · simp [hc]

theorem rowCovers_succ (b : Byte) (row xPos k r c : Nat) : rowCovers b row xPos (k + 1) r c =
    (rowCovers b row xPos k r c || (decide (r = row) && (decide (c = xPos + k) && spriteBit b k))) := by
  simp [rowCovers, List.range_succ, Bool.and_or_distrib_left]

theorem rowHits_succ (f : Framebuffer) (b : Byte) (row xPos k : Nat) : rowHits f b row xPos (k + 1) =
    (rowHits f b row xPos k || (spriteBit b k && Framebuffer.pixel f row (xPos + k))) := by
  simp [rowHits, List.range_succ]

/-- One row (R161): exactly the covered pixels are toggled, and a collision is noted when one of them was on. -/
theorem drawRow_spec (b : Byte) (row xPos : Nat) (acc : Framebuffer × Bool)
    (hin : ∀ c, c < 8 → spriteBit b c = true → row < 32 ∧ xPos + c < 64) :
    (∀ r c, Framebuffer.pixel (drawRow b row xPos acc).1 r c =
      (Framebuffer.pixel acc.1 r c ^^ rowCovers b row xPos 8 r c)) ∧
    (drawRow b row xPos acc).2 = (acc.2 || rowHits acc.1 b row xPos 8) := by
  suffices h : ∀ k, k ≤ 8 → ∀ p, p = (List.range k).foldl
      (fun acc c => if spriteBit b c then drawPixel acc row (xPos + c) else acc) acc →
      (∀ r c, Framebuffer.pixel p.1 r c = (Framebuffer.pixel acc.1 r c ^^ rowCovers b row xPos k r c)) ∧
      p.2 = (acc.2 || rowHits acc.1 b row xPos k) from h 8 (Nat.le_refl 8) _ rfl
  intro k
  induction k with
  | zero =>
    rintro _ p rfl
    simp [rowCovers, rowHits]
  | succ k ih =>
    rintro hk p rfl
    obtain ⟨h1, h2⟩ := ih (by omega) _ rfl
    rw [List.range_succ, List.foldl_append, List.foldl_cons, List.foldl_nil]
    cases hb : spriteBit b k with
    | false =>
      simp only [Bool.false_eq_true, if_false]
      exact ⟨fun r c => by simp [h1, rowCovers_succ, hb], by simp [h2, rowHits_succ, hb]⟩
    | true =>
      obtain ⟨hr, hc⟩ := hin k (by omega) hb
      simp only [if_true]
      constructor
      · intro r c
        rw [drawPixel_pixel _ _ _ _ _ hr hc, h1, Bool.xor_assoc, xor_rowCovers, rowCovers_succ, hb, Bool.and_true]
      · rw [rowHits_succ, hb, Bool.true_and, ← Bool.or_assoc, ← h2]
        rw [drawPixel_collision, h1, rowCovers_next, Bool.xor_false]

/-- No earlier row covers a pixel of the next row. -/
theorem spriteCovers_next (s : State) (xPos yPos n c : Nat) : spriteCovers s xPos yPos n (yPos + n) c = false := by
  rw [spriteCovers, List.any_eq_false]
  intro q hq
  have := List.mem_range.1 hq
  simp only [rowCovers, Bool.and_eq_true, decide_eq_true_eq, not_and]
  omega

theorem spriteCovers_succ (s : State) (xPos yPos n r c : Nat) : spriteCovers s xPos yPos (n + 1) r c =
    (spriteCovers s xPos yPos n r c || rowCovers (spriteByte s n) (yPos + n) xPos 8 r c) := by
  simp [spriteCovers, List.range_succ]

theorem spriteHits_succ (s : State) (xPos yPos n : Nat) : spriteHits s xPos yPos (n + 1) =
    (spriteHits s xPos yPos n || rowHits s.fb (spriteByte s n) (yPos + n) xPos 8) := by
  simp [spriteHits, List.range_succ]

/-- Of two rows at different places no pixel is covered by both. -/
theorem xor_spriteCovers (s : State) (xPos yPos n r c : Nat) :
    (spriteCovers s xPos yPos n r c ^^ rowCovers (spriteByte s n) (yPos + n) xPos 8 r c) =
      (spriteCovers s xPos yPos n r c || rowCovers (spriteByte s n) (yPos + n) xPos 8 r c) := by
  by_cases hr : r = yPos + n
  · subst hr
    simp [spriteCovers_next]
  · simp [rowCovers, hr]

/-- The whole sprite (R161): exactly the covered pixels are toggled, and there is a collision when one of them was on
before the instruction. -/
theorem drawSprite_spec (s : State) (xPos yPos n : Nat)
    (hin : ∀ r, r < n → ∀ c, c < 8 → spriteBit (spriteByte s r) c = true → yPos + r < 32 ∧ xPos + c < 64) :
    (∀ r c, Framebuffer.pixel (drawSprite s xPos yPos n).1 r c = (s.pixelAt r c ^^ spriteCovers s xPos yPos n r c)) ∧
    (drawSprite s xPos yPos n).2 = spriteHits s xPos yPos n := by
  unfold drawSprite
  induction n with
  | zero => simp [State.pixelAt, spriteCovers, spriteHits]
  | succ n ih =>
    obtain ⟨h1, h2⟩ := ih fun r hr => hin r (by omega)
    rw [List.range_succ, List.foldl_append, List.foldl_cons, List.foldl_nil]
    obtain ⟨d1, d2⟩ := drawRow_spec (spriteByte s n) (yPos + n) xPos ((List.range n).foldl
      (fun acc r => drawRow (spriteByte s r) (yPos + r) xPos acc) (s.fb, false)) (hin n (by omega))
    constructor
    · intro r c
      rw [d1, h1, Bool.xor_assoc, xor_spriteCovers, spriteCovers_succ]
    · rw [d2, h2, spriteHits_succ]
      congr 1
      unfold rowHits
      simp only [h1, spriteCovers_next, Bool.xor_false]
      rfl

/-- When a pixel is covered, as rows and columns (R162). -/
theorem spriteCovers_eq_true (s : State) (xPos yPos n r c : Nat) : spriteCovers s xPos yPos n r c = true ↔
    ∃ q j, q < n ∧ j < 8 ∧ r = yPos + q ∧ c = xPos + j ∧ spriteBit (spriteByte s q) j = true := by
  simp only [spriteCovers, rowCovers, List.any_eq_true, List.mem_range, Bool.and_eq_true, decide_eq_true_eq]
  constructor
  · rintro ⟨q, hq, hr, j, hj, hc, hb⟩
    exact ⟨q, j, hq, hj, hr, hc, hb⟩
  · rintro ⟨q, j, hq, hj, hr, hc, hb⟩
    exact ⟨q, hq, hr, j, hj, hc, hb⟩

/-- When there is a collision, as rows and columns (R161). -/
theorem spriteHits_eq_true (s : State) (xPos yPos n : Nat) : spriteHits s xPos yPos n = true ↔
    ∃ q j, q < n ∧ j < 8 ∧ spriteBit (spriteByte s q) j = true ∧ s.pixelAt (yPos + q) (xPos + j) = true := by
  simp only [spriteHits, rowHits, List.any_eq_true, List.mem_range, Bool.and_eq_true]
  constructor
  · rintro ⟨q, hq, j, hj, hb, hp⟩
    exact ⟨q, j, hq, hj, hb, hp⟩
  · rintro ⟨q, j, hq, hj, hb, hp⟩
    exact ⟨q, hq, j, hj, hb, hp⟩

end Sys2Proof.Machine
end

