-- ==== Sys2Proof/Laws/PerInstr.lean ====
section
/-! SUPPORT. Statements about every instruction as syntax, one lemma per constructor.
`EncodeRow`: the word of a well-formed instruction has the fixed bits of its row of the opcode map R76. -/

namespace Sys2Proof

/-- The fixed nibble of a one-nibble row. -/
theorem and_F000_toNat (w : Word) : (w &&& 0xF000#16).toNat = 0x1000 * (w.toNat / 0x1000) := by
  have h : w &&& 0xF000#16 = w.extractLsb' 12 4 ++ 0#12 := by
    apply BitVec.eq_of_getLsbD_eq
    intro i hi
    refine Eq.trans ?_ BitVec.getLsbD_append.symm
    interval_cases i <;> simp
  have := w.isLt
  rw [h, BitVec.toNat_append, Nat.shiftLeft_eq, Nat.mul_comm, ← Nat.two_pow_add_eq_or_of_lt (by simp)]
  simp only [BitVec.extractLsb'_toNat, Nat.shiftRight_eq_div_pow, BitVec.toNat_ofNat]
  omega

/-- The fixed nibbles of a row of format XY. -/
theorem and_F00F_toNat (w : Word) : (w &&& 0xF00F#16).toNat = 0x1000 * (w.toNat / 0x1000) + w.toNat % 0x10 := by
  have h : w &&& 0xF00F#16 = w.extractLsb' 12 4 ++ (w.extractLsb' 0 4).setWidth 12 := by
    apply BitVec.eq_of_getLsbD_eq
    intro i hi
    refine Eq.trans ?_ BitVec.getLsbD_append.symm
    interval_cases i <;> simp
  have := w.isLt
  rw [h, BitVec.toNat_append, Nat.shiftLeft_eq, Nat.mul_comm, ← Nat.two_pow_add_eq_or_of_lt (BitVec.isLt _)]
  simp only [BitVec.extractLsb'_toNat, Nat.shiftRight_eq_div_pow, BitVec.toNat_setWidth]
  omega

/-- The fixed nibbles of a row of format XF. -/
theorem and_F0FF_toNat (w : Word) : (w &&& 0xF0FF#16).toNat = 0x1000 * (w.toNat / 0x1000) + w.toNat % 0x100 := by
  have h : w &&& 0xF0FF#16 = w.extractLsb' 12 4 ++ (w.extractLsb' 0 8).setWidth 12 := by
    apply BitVec.eq_of_getLsbD_eq
    intro i hi
    refine Eq.trans ?_ BitVec.getLsbD_append.symm
    interval_cases i <;> simp
  have := w.isLt
  rw [h, BitVec.toNat_append, Nat.shiftLeft_eq, Nat.mul_comm, ← Nat.two_pow_add_eq_or_of_lt (BitVec.isLt _)]
  simp only [BitVec.extractLsb'_toNat, Nat.shiftRight_eq_div_pow, BitVec.toNat_setWidth]
  omega

end Sys2Proof

namespace Sys2Proof.Laws.EncodeRow

open Sys2Proof

/-- The word of the instruction matches the instruction's row of R76 in every fixed bit. -/
def Statement (i : Instr) : Prop :=
  i.wellFormed = true → encode i &&& (opcodeRowOf i).1 = (opcodeRowOf i).2

theorem formatA {m : Nat} {nnn : Word} {p : Word} (h : addressFits nnn = true) (hm : m ≤ 0xF000)
    (hp : p.toNat = 0x1000 * (m / 0x1000)) (hd : m % 0x1000 = 0) : wordA m nnn &&& 0xF000#16 = p := by
  have h' : nnn.toNat < 0x1000 := by simpa [addressFits] using h
  apply BitVec.eq_of_toNat_eq
  rw [and_F000_toNat, wordA_toNat m nnn h' hm, hp]
  omega

theorem formatXK {m : Nat} {x : Reg} {nn : Byte} {p : Word} (hm : m ≤ 0xF000) (hp : p.toNat = 0x1000 * (m / 0x1000))
    (hd : m % 0x1000 = 0) : wordXK m x nn &&& 0xF000#16 = p := by
  have := x.isLt
  have := nn.isLt
  apply BitVec.eq_of_toNat_eq
  rw [and_F000_toNat, wordXK_toNat m x nn hm, hp]
  omega

theorem formatXY {m n : Nat} {x y : Reg} {p : Word} (hn : n < 16) (hm : m ≤ 0xF000) (hp : p.toNat = m + n)
    (hd : m % 0x1000 = 0) : wordXYN m x y n &&& 0xF00F#16 = p := by
  have := x.isLt
  have := y.isLt
  apply BitVec.eq_of_toNat_eq
  rw [and_F00F_toNat, wordXYN_toNat m x y n hn hm, hp]
  omega

theorem formatXYN {m n : Nat} {x y : Reg} {p : Word} (h : rowCountFits n = true) (hm : m ≤ 0xF000) (hp : p.toNat = m)
    (hd : m % 0x1000 = 0) : wordXYN m x y n &&& 0xF000#16 = p := by
  have := x.isLt
  have := y.isLt
  have hn : n < 16 := by simpa [rowCountFits] using h
  apply BitVec.eq_of_toNat_eq
  rw [and_F000_toNat, wordXYN_toNat m x y n hn hm, hp]
  omega

theorem formatXF {m : Nat} {x : Reg} {p : Word} (hm : m ≤ 0xF0FF) (hp : p.toNat = m) (hd : m % 0x1000 < 0x100) :
    wordXF m x &&& 0xF0FF#16 = p := by
  have := x.isLt
  apply BitVec.eq_of_toNat_eq
  rw [and_F0FF_toNat, wordXF_toNat m x hm, hp]
  omega

theorem cls : Statement .cls := fun _ => rfl
theorem ret : Statement .ret := fun _ => rfl
theorem jp (nnn : Word) : Statement (.jp nnn) := fun h => formatA h (by decide) rfl rfl
theorem call (nnn : Word) : Statement (.call nnn) := fun h => formatA h (by decide) rfl rfl
theorem seVxNn (x : Reg) (nn : Byte) : Statement (.seVxNn x nn) := fun _ => formatXK (by decide) rfl rfl
theorem sneVxNn (x : Reg) (nn : Byte) : Statement (.sneVxNn x nn) := fun _ => formatXK (by decide) rfl rfl
theorem seVxVy (x y : Reg) : Statement (.seVxVy x y) := fun _ => formatXY (by decide) (by decide) rfl rfl
theorem ldVxNn (x : Reg) (nn : Byte) : Statement (.ldVxNn x nn) := fun _ => formatXK (by decide) rfl rfl
theorem addVxNn (x : Reg) (nn : Byte) : Statement (.addVxNn x nn) := fun _ => formatXK (by decide) rfl rfl
theorem ldVxVy (x y : Reg) : Statement (.ldVxVy x y) := fun _ => formatXY (by decide) (by decide) rfl rfl
theorem orVxVy (x y : Reg) : Statement (.orVxVy x y) := fun _ => formatXY (by decide) (by decide) rfl rfl
theorem andVxVy (x y : Reg) : Statement (.andVxVy x y) := fun _ => formatXY (by decide) (by decide) rfl rfl
theorem xorVxVy (x y : Reg) : Statement (.xorVxVy x y) := fun _ => formatXY (by decide) (by decide) rfl rfl
theorem addVxVy (x y : Reg) : Statement (.addVxVy x y) := fun _ => formatXY (by decide) (by decide) rfl rfl
theorem subVxVy (x y : Reg) : Statement (.subVxVy x y) := fun _ => formatXY (by decide) (by decide) rfl rfl
theorem shrVx (x y : Reg) : Statement (.shrVx x y) := fun _ => formatXY (by decide) (by decide) rfl rfl
theorem subnVxVy (x y : Reg) : Statement (.subnVxVy x y) := fun _ => formatXY (by decide) (by decide) rfl rfl
theorem shlVx (x y : Reg) : Statement (.shlVx x y) := fun _ => formatXY (by decide) (by decide) rfl rfl
theorem sneVxVy (x y : Reg) : Statement (.sneVxVy x y) := fun _ => formatXY (by decide) (by decide) rfl rfl
theorem ldINnn (nnn : Word) : Statement (.ldINnn nnn) := fun h => formatA h (by decide) rfl rfl
theorem jpV0 (nnn : Word) : Statement (.jpV0 nnn) := fun h => formatA h (by decide) rfl rfl
theorem rnd (x : Reg) (nn : Byte) : Statement (.rnd x nn) := fun _ => formatXK (by decide) rfl rfl
theorem drw (x y : Reg) (n : Nat) : Statement (.drw x y n) := fun h => formatXYN h (by decide) rfl rfl
theorem skp (x : Reg) : Statement (.skp x) := fun _ => formatXF (by decide) rfl (by decide)
theorem sknp (x : Reg) : Statement (.sknp x) := fun _ => formatXF (by decide) rfl (by decide)
theorem ldVxDt (x : Reg) : Statement (.ldVxDt x) := fun _ => formatXF (by decide) rfl (by decide)
theorem ldVxK (x : Reg) : Statement (.ldVxK x) := fun _ => formatXF (by decide) rfl (by decide)
theorem ldDtVx (x : Reg) : Statement (.ldDtVx x) := fun _ => formatXF (by decide) rfl (by decide)
theorem ldStVx (x : Reg) : Statement (.ldStVx x) := fun _ => formatXF (by decide) rfl (by decide)
theorem addIVx (x : Reg) : Statement (.addIVx x) := fun _ => formatXF (by decide) rfl (by decide)
theorem ldFVx (x : Reg) : Statement (.ldFVx x) := fun _ => formatXF (by decide) rfl (by decide)
theorem ldBVx (x : Reg) : Statement (.ldBVx x) := fun _ => formatXF (by decide) rfl (by decide)
theorem ldMiVx (x : Reg) : Statement (.ldMiVx x) := fun _ => formatXF (by decide) rfl (by decide)
theorem ldVxMi (x : Reg) : Statement (.ldVxMi x) := fun _ => formatXF (by decide) rfl (by decide)

end Sys2Proof.Laws.EncodeRow
end

