-- ==== Sys2Proof/Laws/Step.lean ====
section
/-! SUPPORT. What a meaning with a choice can answer, and what one cycle can do: each case once, guards included. -/

namespace Sys2Proof.Machine

/-! ### Meanings with a choice -/

/-- 00EE (R101): what it can answer. -/
theorem execRet_cases (s : State) :
    (s.sp = 0 ∧ execRet s = .fault (.stackUnderflow s.sp (s.pc - 2) s.ir)) ∨
    (0 < s.sp.toNat ∧ s.sp.toNat ≤ 16 ∧
      execRet s = .next ((s.setSp (s.sp - 1)).setPc (s.stackAt (s.sp.toNat - 1)))) ∨
    (16 < s.sp.toNat ∧ execRet s = .refused (.stackPointerOutOfRange s.sp)) := by
  unfold execRet
  by_cases h0 : s.sp = 0
  · exact Or.inl ⟨h0, by rw [if_pos h0]; rfl⟩
  · have h1 : 0 < s.sp.toNat := Nat.pos_of_ne_zero fun h => h0 (BitVec.eq_of_toNat_eq (by simpa using h))
    by_cases h2 : s.sp.toNat ≤ 16
    · exact Or.inr (Or.inl ⟨h1, h2, by rw [if_neg h0, if_pos h2]⟩)
    · exact Or.inr (Or.inr ⟨by omega, by rw [if_neg h0, if_neg h2]⟩)

/-- 2nnn (R103): what it can answer. -/
theorem execCall_cases (nnn : Word) (s : State) :
    (s.sp.toNat < 16 ∧ execCall nnn s = .next (((s.setStack s.sp.toNat s.pc).setSp (s.sp + 1)).setPc nnn)) ∨
    (16 ≤ s.sp.toNat ∧ execCall nnn s = .fault (.stackOverflow s.sp (s.pc - 2) s.ir)) := by
  unfold execCall
  by_cases h : s.sp.toNat < 16
  · exact Or.inl ⟨h, by rw [if_pos h]⟩
  · exact Or.inr ⟨by omega, by rw [if_neg h]; rfl⟩

/-- A memory instruction that may leave memory answers one of two (R143 to R145). -/
theorem guarded_cases (k : Nat) (t s : State) (f : Word → Word → Fault) :
    (effectiveAddress s k ≤ 0xFFF ∧ (if inMemory (effectiveAddress s k) then (Host.Outcome.next t : Result) else raise f s) = .next t) ∨
    (0xFFF < effectiveAddress s k ∧
      (if inMemory (effectiveAddress s k) then (Host.Outcome.next t : Result) else raise f s) = .fault (f (s.pc - 2) s.ir)) := by
  unfold inMemory
  by_cases h : effectiveAddress s k ≤ 0xFFF
  · exact Or.inl ⟨h, by simp [h]⟩
  · exact Or.inr ⟨by omega, by simp [h, raise]⟩

/-- Fx33 (R143): what it can answer. -/
theorem execLdBVx_cases (x : Reg) (s : State) :
    (effectiveAddress s 2 ≤ 0xFFF ∧ execLdBVx x s =
      .next (s.setMem (Memory.load s.mem (effectiveAddress s 0) (decimalDigits (s.readV x))))) ∨
    (0xFFF < effectiveAddress s 2 ∧ execLdBVx x s = .fault (.memOutOfBounds (lowestOutside s) (s.pc - 2) s.ir)) :=
  guarded_cases 2 _ s _

/-- Fx55 (R144): what it can answer. -/
theorem execLdMiVx_cases (x : Reg) (s : State) :
    (effectiveAddress s x.val ≤ 0xFFF ∧ execLdMiVx x s = .next (s.setMem (storeRegs s (regsUpTo x) s.mem))) ∨
    (0xFFF < effectiveAddress s x.val ∧
      execLdMiVx x s = .fault (.memOutOfBounds (lowestOutside s) (s.pc - 2) s.ir)) :=
  guarded_cases x.val _ s _

/-- Fx65 (R145): what it can answer. -/
theorem execLdVxMi_cases (x : Reg) (s : State) :
    (effectiveAddress s x.val ≤ 0xFFF ∧ execLdVxMi x s = .next (loadRegs s (regsUpTo x))) ∨
    (0xFFF < effectiveAddress s x.val ∧
      execLdVxMi x s = .fault (.memOutOfBounds (lowestOutside s) (s.pc - 2) s.ir)) :=
  guarded_cases x.val _ s _

/-- Ex9E and ExA1 (R170, R171): what they can answer. -/
theorem skipOnKey_cases (x : Reg) (b : Bool) (s : State) :
    ((s.readV x).toNat ≤ 15 ∧ skipOnKey x b s = .next (s.skipIf (s.keyAt (s.readV x).toNat == b))) ∨
    (15 < (s.readV x).toNat ∧ skipOnKey x b s = .fault (.keyIndexOutOfRange (s.readV x) (s.pc - 2) s.ir)) := by
  unfold skipOnKey
  by_cases h : (s.readV x).toNat ≤ 15
  · exact Or.inl ⟨h, by rw [if_pos h]⟩
  · exact Or.inr ⟨by omega, by rw [if_neg h]; rfl⟩

/-- Fx0A (R172): what it can answer. -/
theorem execLdVxK_cases (x : Reg) (s : State) :
    (∃ k, s.firstKey = some k ∧ execLdVxK x s = .next (s.writeV x (BitVec.ofNat 8 k))) ∨
    (s.firstKey = none ∧ execLdVxK x s = .next (s.setPc (s.pc - 2))) := by
  unfold execLdVxK
  cases h : s.firstKey with
  | some k => exact Or.inl ⟨k, rfl, rfl⟩
  | none => exact Or.inr ⟨rfl, rfl⟩

/-- Dxyn (R161): what it can answer. -/
theorem execDrw_cases (x y : Reg) (n : Nat) (s : State) :
    (∃ f, spriteCheck s (spriteColumn (s.readV x)) (spriteRow (s.readV y)) n = some f ∧
      execDrw x y n s = .fault (f (s.pc - 2) s.ir)) ∨
    (spriteCheck s (spriteColumn (s.readV x)) (spriteRow (s.readV y)) n = none ∧
      execDrw x y n s = .next
        ((s.setFb (drawSprite s (spriteColumn (s.readV x)) (spriteRow (s.readV y)) n).1).writeFlag
          (drawSprite s (spriteColumn (s.readV x)) (spriteRow (s.readV y)) n).2)) := by
  unfold execDrw
  cases spriteCheck s (spriteColumn (s.readV x)) (spriteRow (s.readV y)) n with
  | some f => exact Or.inl ⟨f, rfl, rfl⟩
  | none => exact Or.inr ⟨rfl, rfl⟩

/-! ### If a meaning with a choice completes, then -/

/-- 00EE (R101). -/
theorem execRet_next {s t : State} (h : execRet s = .next t) : 0 < s.sp.toNat ∧ s.sp.toNat ≤ 16 ∧
    t = (s.setSp (s.sp - 1)).setPc (s.stackAt (s.sp.toNat - 1)) := by
  rcases execRet_cases s with ⟨_, e⟩ | ⟨h0, h1, e⟩ | ⟨_, e⟩ <;> rw [e] at h <;> cases h
  exact ⟨h0, h1, rfl⟩

/-- 2nnn (R103). -/
theorem execCall_next {nnn : Word} {s t : State} (h : execCall nnn s = .next t) : s.sp.toNat < 16 ∧
    t = ((s.setStack s.sp.toNat s.pc).setSp (s.sp + 1)).setPc nnn := by
  rcases execCall_cases nnn s with ⟨h0, e⟩ | ⟨_, e⟩ <;> rw [e] at h <;> cases h
  exact ⟨h0, rfl⟩

/-- Fx33 (R143). -/
theorem execLdBVx_next {x : Reg} {s t : State} (h : execLdBVx x s = .next t) : effectiveAddress s 2 ≤ 0xFFF ∧
    t = s.setMem (Memory.load s.mem (effectiveAddress s 0) (decimalDigits (s.readV x))) := by
  rcases execLdBVx_cases x s with ⟨h0, e⟩ | ⟨_, e⟩ <;> rw [e] at h <;> cases h
  exact ⟨h0, rfl⟩

/-- Fx55 (R144). -/
theorem execLdMiVx_next {x : Reg} {s t : State} (h : execLdMiVx x s = .next t) : effectiveAddress s x.val ≤ 0xFFF ∧
    t = s.setMem (storeRegs s (regsUpTo x) s.mem) := by
  rcases execLdMiVx_cases x s with ⟨h0, e⟩ | ⟨_, e⟩ <;> rw [e] at h <;> cases h
  exact ⟨h0, rfl⟩

/-- Fx65 (R145). -/
theorem execLdVxMi_next {x : Reg} {s t : State} (h : execLdVxMi x s = .next t) : effectiveAddress s x.val ≤ 0xFFF ∧
    t = loadRegs s (regsUpTo x) := by
  rcases execLdVxMi_cases x s with ⟨h0, e⟩ | ⟨_, e⟩ <;> rw [e] at h <;> cases h
  exact ⟨h0, rfl⟩

/-- Ex9E and ExA1 (R170, R171). -/
theorem skipOnKey_next {x : Reg} {b : Bool} {s t : State} (h : skipOnKey x b s = .next t) : (s.readV x).toNat ≤ 15 ∧
    t = s.skipIf (s.keyAt (s.readV x).toNat == b) := by
  rcases skipOnKey_cases x b s with ⟨h0, e⟩ | ⟨_, e⟩ <;> rw [e] at h <;> cases h
  exact ⟨h0, rfl⟩

/-- Fx0A (R172). -/
theorem execLdVxK_next {x : Reg} {s t : State} (h : execLdVxK x s = .next t) :
    (∃ k, s.firstKey = some k ∧ t = s.writeV x (BitVec.ofNat 8 k)) ∨ s.firstKey = none ∧ t = s.setPc (s.pc - 2) := by
  rcases execLdVxK_cases x s with ⟨k, h0, e⟩ | ⟨h0, e⟩ <;> rw [e] at h <;> cases h
  · exact Or.inl ⟨k, h0, rfl⟩
  · exact Or.inr ⟨h0, rfl⟩

/-- Dxyn (R161). -/
theorem execDrw_next {x y : Reg} {n : Nat} {s t : State} (h : execDrw x y n s = .next t) :
    spriteCheck s (spriteColumn (s.readV x)) (spriteRow (s.readV y)) n = none ∧
    t = (s.setFb (drawSprite s (spriteColumn (s.readV x)) (spriteRow (s.readV y)) n).1).writeFlag
      (drawSprite s (spriteColumn (s.readV x)) (spriteRow (s.readV y)) n).2 := by
  rcases execDrw_cases x y n s with ⟨f, _, e⟩ | ⟨h0, e⟩ <;> rw [e] at h <;> cases h
  exact ⟨h0, rfl⟩

/-! ### The cycle -/

/-- The fetched word of a state with both bytes in memory (R91). -/
theorem fetchWord_of_le (s : State) (h : s.pc.toNat ≤ 0xFFE) :
    s.fetchWord = some (wordOf (s.byteAt s.pc.toNat) (s.byteAt (s.pc.toNat + 1))) := by
  simp [State.fetchWord, h]

/-- No word is fetched above 0xFFE (R91). -/
theorem fetchWord_of_gt (s : State) (h : 0xFFE < s.pc.toNat) : s.fetchWord = none := by
  simp [State.fetchWord, Nat.not_le.2 h]

/-- A fetch succeeds exactly when both bytes are in memory (R91). -/
theorem fetchWord_eq_some {s : State} {w : Word} (h : s.fetchWord = some w) :
    s.pc.toNat ≤ 0xFFE ∧ w = wordOf (s.byteAt s.pc.toNat) (s.byteAt (s.pc.toNat + 1)) := by
  unfold State.fetchWord at h
  split at h
  · exact ⟨‹_›, (Option.some.inj h).symm⟩
  · cases h

/-- R95: a halted core does nothing. -/
theorem step_halted {s : State} (h : s.halted = true) : step s = .next s := by simp [step, h]

/-- R91, R203: a fetch outside memory. -/
theorem step_fetch_fault {s : State} (h : s.halted = false) (hw : s.fetchWord = none) :
    step s = .fault (.fetchOutOfBounds s.pc) := by simp [step, h, hw]

/-- R202: a word of no pattern. -/
theorem step_decode_fault {s : State} {w : Word} {e : DecodeReject} (h : s.halted = false) (hw : s.fetchWord = some w)
    (hd : decode w = .error e) : step s = .fault (.decodeError s.pc w) := by simp [step, h, hw, runWord, hd]

/-- R90: a word that decodes is executed and the timers tick. -/
theorem step_exec {s : State} {w : Word} {i : Instr} (h : s.halted = false) (hw : s.fetchWord = some w)
    (hd : decode w = .ok i) : step s = endCycle (exec i (s.fetched w)) := by simp [step, h, hw, runWord, hd]

/-- What one cycle can do. -/
theorem step_cases (s : State) :
    (s.halted = true ∧ step s = .next s) ∨
    (s.halted = false ∧ 0xFFE < s.pc.toNat ∧ step s = .fault (.fetchOutOfBounds s.pc)) ∨
    (∃ w e, s.halted = false ∧ s.fetchWord = some w ∧ decode w = .error e ∧
      step s = .fault (.decodeError s.pc w)) ∨
    (∃ w i, s.halted = false ∧ s.fetchWord = some w ∧ decode w = .ok i ∧
      step s = endCycle (exec i (s.fetched w))) := by
  cases hh : s.halted with
  | true => exact Or.inl ⟨rfl, step_halted hh⟩
  | false =>
    refine Or.inr ?_
    cases hw : s.fetchWord with
    | none =>
      refine Or.inl ⟨rfl, ?_, step_fetch_fault hh hw⟩
      by_contra hle
      rw [fetchWord_of_le s (by omega)] at hw
      cases hw
    | some w =>
      refine Or.inr ?_
      cases hd : decode w with
      | error e => exact Or.inl ⟨w, e, rfl, rfl, hd, step_decode_fault hh hw hd⟩
      | ok i => exact Or.inr ⟨w, i, rfl, rfl, hd, step_exec hh hw hd⟩

/-- A cycle that completes: a halted core's, or an execute step's followed by the tick (R90). -/
theorem step_eq_next {s t : State} (h : step s = .next t) :
    (s.halted = true ∧ t = s) ∨
    ∃ w i u, s.halted = false ∧ s.fetchWord = some w ∧ decode w = .ok i ∧
      exec i (s.fetched w) = .next u ∧ t = u.tick := by
  rcases step_cases s with ⟨hh, hs⟩ | ⟨_, _, hs⟩ | ⟨_, _, _, _, _, hs⟩ | ⟨w, i, hh, hw, hd, hs⟩
  · rw [hs] at h
    cases h
    exact Or.inl ⟨hh, rfl⟩
  · rw [hs] at h; cases h
  · rw [hs] at h; cases h
  · obtain ⟨u, hu, rfl⟩ := endCycle_eq_next (hs.symm.trans h)
    exact Or.inr ⟨w, i, u, hh, hw, hd, hu, rfl⟩

end Sys2Proof.Machine
end

