-- ==== Sys2Proof/Tests/Slice0.lean ====
section
/-! SUPPORT. Tests: ill-formed terms, the decoding of every constructor from words written out bit by bit (R71, R76), one
step of each instruction (expected values from spec/95_test_vectors.md or from the example of the instruction's rule), the
host's functions on a first step, and for every statement with hypotheses a witness that meets them. -/

namespace Sys2Proof.Tests

open Sys2Proof.Machine Sys2Proof.Claims

/-- A value of the next state, if there is one. -/
def valueOf {α : Type} (f : State → α) : Result → Option α
  | .next t => some (f t)
  | .fault _ => none
  | .refused _ => none

/-- The fault, if there is one. -/
def faultOf : Result → Option Fault
  | .next _ => none
  | .fault f => some f
  | .refused _ => none

/-- The reset state with some registers written. -/
def regs (l : List (Reg × Byte)) : State := l.foldl (fun s p => s.writeV p.1 p.2) State.reset

/-- The state with `I = a` and the bytes `bs` from there on. -/
def at_ (s : State) (a : Word) (bs : List Byte) : State := (s.setIndex a).setMem (Memory.load s.mem a.toNat bs)

/-- One cycle that fetches the word `w`. -/
def run (s : State) (w : Nat) : Result := step (s.withFetchWord 16 w)

/-- The keypad with the keys listed pressed. -/
def pressed (l : List Nat) : Keypad := Vector.ofFn fun k : Fin 16 => decide (k.val ∈ l)

/-! ### Well-formedness: ill-formed terms are refused -/

theorem test_illformed_address : (Instr.jp 0x1000).wellFormed = false := by decide
theorem test_illformed_call_address : (Instr.call 0xFFFF).wellFormed = false := by decide
theorem test_illformed_index_address : (Instr.ldINnn 0x1000).wellFormed = false := by decide
theorem test_illformed_offset_address : (Instr.jpV0 0x1000).wellFormed = false := by decide
theorem test_illformed_row_count : (Instr.drw 0 0 16).wellFormed = false := by decide
theorem test_wellformed_edges :
    (Instr.jp 0xFFF).wellFormed = true ∧ (Instr.drw 15 15 15).wellFormed = true := by decide

/-! ### Decoding: words written out from R71 and R76 -/

theorem test_decode_cls : decode 0b0000_0000_1110_0000#16 = .ok .cls := by decide
theorem test_decode_ret : decode 0b0000_0000_1110_1110#16 = .ok .ret := by decide
theorem test_decode_jp : decode 0b0001_0010_0011_0100#16 = .ok (.jp 0x234) := by decide
theorem test_decode_call : decode 0b0010_1010_1011_1100#16 = .ok (.call 0xABC) := by decide
theorem test_decode_seVxNn : decode 0b0011_0011_0010_1010#16 = .ok (.seVxNn 3 0x2A) := by decide
theorem test_decode_sneVxNn : decode 0b0100_0011_0010_1010#16 = .ok (.sneVxNn 3 0x2A) := by decide
theorem test_decode_seVxVy : decode 0b0101_0001_0010_0000#16 = .ok (.seVxVy 1 2) := by decide
theorem test_decode_ldVxNn : decode 0b0110_1010_1111_1111#16 = .ok (.ldVxNn 10 0xFF) := by decide
theorem test_decode_addVxNn : decode 0b0111_0000_0000_0011#16 = .ok (.addVxNn 0 3) := by decide
theorem test_decode_ldVxVy : decode 0b1000_0001_0010_0000#16 = .ok (.ldVxVy 1 2) := by decide
theorem test_decode_orVxVy : decode 0b1000_0001_0010_0001#16 = .ok (.orVxVy 1 2) := by decide
theorem test_decode_andVxVy : decode 0b1000_0001_0010_0010#16 = .ok (.andVxVy 1 2) := by decide
theorem test_decode_xorVxVy : decode 0b1000_0001_0010_0011#16 = .ok (.xorVxVy 1 2) := by decide
theorem test_decode_addVxVy : decode 0b1000_0001_0010_0100#16 = .ok (.addVxVy 1 2) := by decide
theorem test_decode_subVxVy : decode 0b1000_0001_0010_0101#16 = .ok (.subVxVy 1 2) := by decide
theorem test_decode_shrVx : decode 0b1000_1010_1011_0110#16 = .ok (.shrVx 10 11) := by decide
theorem test_decode_subnVxVy : decode 0b1000_0001_0010_0111#16 = .ok (.subnVxVy 1 2) := by decide
theorem test_decode_shlVx : decode 0b1000_1111_1111_1110#16 = .ok (.shlVx 15 15) := by decide
theorem test_decode_sneVxVy : decode 0b1001_1010_1011_0000#16 = .ok (.sneVxVy 10 11) := by decide
theorem test_decode_ldINnn : decode 0b1010_0010_0101_0000#16 = .ok (.ldINnn 0x250) := by decide
theorem test_decode_jpV0 : decode 0b1011_0011_0000_0000#16 = .ok (.jpV0 0x300) := by decide
theorem test_decode_rnd : decode 0b1100_0011_0000_1111#16 = .ok (.rnd 3 0x0F) := by decide
theorem test_decode_drw : decode 0b1101_0001_0010_0101#16 = .ok (.drw 1 2 5) := by decide
theorem test_decode_skp : decode 0b1110_0010_1001_1110#16 = .ok (.skp 2) := by decide
theorem test_decode_sknp : decode 0b1110_1111_1010_0001#16 = .ok (.sknp 15) := by decide
theorem test_decode_ldVxDt : decode 0b1111_0010_0000_0111#16 = .ok (.ldVxDt 2) := by decide
theorem test_decode_ldVxK : decode 0b1111_0001_0000_1010#16 = .ok (.ldVxK 1) := by decide
theorem test_decode_ldDtVx : decode 0b1111_0100_0001_0101#16 = .ok (.ldDtVx 4) := by decide
theorem test_decode_ldStVx : decode 0b1111_0100_0001_1000#16 = .ok (.ldStVx 4) := by decide
theorem test_decode_addIVx : decode 0b1111_0010_0001_1110#16 = .ok (.addIVx 2) := by decide
theorem test_decode_ldFVx : decode 0b1111_0011_0010_1001#16 = .ok (.ldFVx 3) := by decide
theorem test_decode_ldBVx : decode 0b1111_0101_0011_0011#16 = .ok (.ldBVx 5) := by decide
theorem test_decode_ldMiVx : decode 0b1111_0011_0101_0101#16 = .ok (.ldMiVx 3) := by decide
theorem test_decode_ldVxMi : decode 0b1111_1111_0110_0101#16 = .ok (.ldVxMi 15) := by decide

/-- The illegal words of 95_test_vectors.md 2.1, each rejected by name. -/
theorem test_decode_illegal :
    [0x0000#16, 0x00E1, 0x00EF, 0x00FE, 0x01E0, 0x0123, 0x0FFF, 0x5121, 0x512F, 0x8128, 0x8129, 0x812A, 0x812B, 0x812C,
      0x812D, 0x812F, 0x9AB3, 0x9ABF, 0xE000, 0xE09F, 0xE19D, 0xE1A2, 0xE0FF, 0xF000, 0xF106, 0xF108, 0xF114, 0xF11F,
      0xF130, 0xF134, 0xF156, 0xF164, 0xF175, 0xF185, 0xF1FF].all
      (fun w => decide (decode w = .error (.noPattern w))) = true := by decide

/-- R51: the high byte stands at the lower address. -/
theorem test_decode_bytes : decodeBytes [0x12, 0x34, 0x56] = .ok (.jp 0x234, [0x56]) ∧
    decodeBytes [0x12] = .error .tooFewBytes ∧ encodeBytes (.jp 0x234) = [0x12, 0x34] := by decide

theorem test_decode_table_word : decodeTableWord 16 0x8124 = some (.addVxVy 1 2) ∧
    decodeTableWord 16 0x8128 = none ∧ decodeTableWord 16 0x00E0 = some .cls := by decide

/-! ### One step of each instruction -/

/-- 2.6 row 1. -/
theorem test_cls : valueOf (fun t => (t.fb, t.readV 15, t.pc))
    (run ((regs [(15, 1)]).setFb (Framebuffer.toggle Framebuffer.blank 31 63)) 0x00E0) =
      some (Framebuffer.blank, 1, 0x202) := by decide

/-- 2.3 row 8. -/
theorem test_ret : valueOf (fun t => (t.sp, t.pc, t.stackAt 1))
    (run (((State.reset.setStack 0 0x300).setStack 1 0x400).setSp 2) 0x00EE) = some (1, 0x400, 0x400) := by decide

/-- 2.3 row 9. -/
theorem test_ret_empty : faultOf (run State.reset 0x00EE) = some (.stackUnderflow 0 0x200 0x00EE) := by decide

/-- 2.3 row 1. -/
theorem test_jp : valueOf State.pc (run State.reset 0x1234) = some 0x234 := by decide

/-- 2.3 row 6. -/
theorem test_call : valueOf (fun t => (t.stackAt 15, t.sp, t.pc)) (run (State.reset.setSp 15) 0x2400) =
    some (0x202, 16, 0x400) := by decide

/-- 2.3 row 7. -/
theorem test_call_full : faultOf (run (State.reset.setSp 16) 0x2400) = some (.stackOverflow 16 0x200 0x2400) := by decide

/-- 2.3 rows 11 and 12. -/
theorem test_seVxNn : valueOf State.pc (run (regs [(3, 0x42)]) 0x3342) = some 0x204 ∧
    valueOf State.pc (run (regs [(3, 0x42)]) 0x3343) = some 0x202 := by decide

/-- 2.3 rows 13 and 14. -/
theorem test_sneVxNn : valueOf State.pc (run (regs [(3, 0x42)]) 0x4342) = some 0x202 ∧
    valueOf State.pc (run (regs [(3, 0x42)]) 0x4343) = some 0x204 := by decide

/-- 2.3 rows 15 and 16. -/
theorem test_seVxVy : valueOf State.pc (run (regs [(1, 7), (2, 7)]) 0x5120) = some 0x204 ∧
    valueOf State.pc (run (regs [(1, 7), (2, 8)]) 0x5120) = some 0x202 := by decide

/-- 2.3 rows 18 and 19. -/
theorem test_sneVxVy : valueOf State.pc (run (regs [(1, 7), (2, 7)]) 0x9120) = some 0x202 ∧
    valueOf State.pc (run (regs [(1, 7), (2, 8)]) 0x9120) = some 0x204 := by decide

/-- 2.3 row 22. -/
theorem test_jpV0 : valueOf State.pc (run (regs [(0, 0xFF)]) 0xBFFF) = some 0x10FE := by decide

/-- 2.3 row 23: always V0. -/
theorem test_jpV0_offset : valueOf State.pc (run (regs [(5, 0x99)]) 0xB500) = some 0x500 := by decide

/-- 2.4 row 1. -/
theorem test_ldVxNn : valueOf (fun t => (t.readV 10, t.pc)) (run State.reset 0x6AFF) = some (0xFF, 0x202) := by decide

/-- 2.4 row 4. -/
theorem test_addVxNn : valueOf (fun t => (t.readV 0, t.readV 15)) (run (regs [(0, 0x10), (15, 1)]) 0x70F0) =
    some (0, 1) := by decide

/-- 2.4 row 6. -/
theorem test_ldVxVy : valueOf (fun t => (t.readV 1, t.readV 2)) (run (regs [(2, 0x5A)]) 0x8120) =
    some (0x5A, 0x5A) := by decide

/-- 2.4 row 7. -/
theorem test_orVxVy : valueOf (fun t => (t.readV 1, t.readV 15)) (run (regs [(1, 0x0F), (2, 0xF0), (15, 1)]) 0x8121) =
    some (0xFF, 1) := by decide

/-- 2.4 row 8. -/
theorem test_andVxVy : valueOf (fun t => t.readV 1) (run (regs [(1, 0x3C), (2, 0x0F)]) 0x8122) = some 0x0C := by decide

/-- 2.4 row 9. -/
theorem test_xorVxVy : valueOf (fun t => t.readV 1) (run (regs [(1, 0x3C), (2, 0x0F)]) 0x8123) = some 0x33 := by decide

/-- 2.4, flag writers, first row. -/
theorem test_addVxVy : valueOf (fun t => (t.readV 1, t.readV 15)) (run (regs [(1, 0xFF), (2, 0x01)]) 0x8124) =
    some (0, 1) := by decide

/-- 2.4, aliasing, row 7: the carry stands. -/
theorem test_addVxVy_vF : valueOf (fun t => t.readV 15) (run (regs [(15, 0xF0), (1, 0x20)]) 0x8F14) = some 1 := by decide

/-- 2.4, flag writers: equal operands give flag 0, a borrow wraps. -/
theorem test_subVxVy : valueOf (fun t => (t.readV 1, t.readV 15)) (run (regs [(1, 5), (2, 7)]) 0x8125) =
      some (0xFE, 0) ∧
    valueOf (fun t => (t.readV 1, t.readV 15)) (run (regs [(1, 5), (2, 5), (15, 1)]) 0x8125) = some (0, 0) := by decide

/-- 2.4, aliasing, row 9: the difference stands. -/
theorem test_subVxVy_vF : valueOf (fun t => t.readV 15) (run (regs [(15, 9), (1, 4)]) 0x8F15) = some 5 := by decide

/-- 2.4, the note on 0x8126: V2 is not read. -/
theorem test_shrVx : valueOf (fun t => (t.readV 1, t.readV 2, t.readV 15)) (run (regs [(1, 5), (2, 0xF0)]) 0x8126) =
    some (2, 0xF0, 1) := by decide

/-- 2.4, aliasing, row 11. -/
theorem test_shrVx_vF : valueOf (fun t => t.readV 15) (run (regs [(15, 7)]) 0x8F06) = some 3 := by decide

/-- 2.4, flag writers. -/
theorem test_subnVxVy : valueOf (fun t => (t.readV 1, t.readV 2, t.readV 15)) (run (regs [(1, 5), (2, 7)]) 0x8127) =
    some (2, 7, 1) := by decide

/-- 2.4, aliasing, row 6: the old VF is the minuend. -/
theorem test_subnVxVy_vF : valueOf (fun t => (t.readV 1, t.readV 15)) (run (regs [(1, 3), (15, 5)]) 0x81F7) =
    some (2, 1) := by decide

/-- 2.4, flag writers. -/
theorem test_shlVx : valueOf (fun t => (t.readV 1, t.readV 15)) (run (regs [(1, 0x81)]) 0x812E) = some (2, 1) := by decide

/-- 2.4, aliasing, row 13. -/
theorem test_shlVx_vF : valueOf (fun t => t.readV 15) (run (regs [(15, 0x81)]) 0x8F0E) = some 2 := by decide

/-- R131, first row of the random vectors: the draw 0xA7 under the mask 0x0F. -/
theorem test_rnd_masked : valueOf (fun t => (t.readV 3, t.draws)) (rndWith 0xA7 3 0x0F State.reset) =
    some (7, 1) := by decide

/-- R131: the step takes the free byte of this draw, whatever it is. -/
theorem test_rnd_step : valueOf (fun t => (t.readV 3, t.draws)) (run State.reset 0xC3FF) =
    some (Config.randomByte 0 &&& 0xFF, 1) := rfl

/-- 2.5 row 1. -/
theorem test_ldINnn : valueOf State.index (run State.reset 0xA123) = some 0x123 := by decide

/-- 2.5 rows 4 and 5. -/
theorem test_addIVx : valueOf State.index (run ((regs [(2, 1)]).setIndex 0x0FFF) 0xF21E) = some 0x1000 ∧
    valueOf State.index (run ((regs [(2, 1)]).setIndex 0xFFFF) 0xF21E) = some 0 := by decide

/-- 2.5 rows 8 and 11. -/
theorem test_ldFVx : valueOf State.index (run (regs [(4, 0x0A)]) 0xF429) = some 0x82 ∧
    valueOf State.index (run (regs [(4, 0xFF)]) 0xF429) = some 0x54B := by decide

/-- 2.5 row 17. -/
theorem test_ldBVx : valueOf (fun t => (t.byteAt 0xFFD, t.byteAt 0xFFE, t.byteAt 0xFFF))
    (run ((regs [(5, 234)]).setIndex 0xFFD) 0xF533) = some (2, 3, 4) := by decide

/-- 2.5 rows 18 and 20. -/
theorem test_ldBVx_outside :
    faultOf (run ((regs [(5, 234)]).setIndex 0xFFE) 0xF533) = some (.memOutOfBounds 0x1000 0x200 0xF533) ∧
    faultOf (run ((regs [(5, 234)]).setIndex 0x2000) 0xF533) = some (.memOutOfBounds 0x2000 0x200 0xF533) := by decide

/-- 2.5 row 21. -/
theorem test_ldMiVx : valueOf (fun t => (t.byteAt 0x400, t.byteAt 0x403, t.byteAt 0x404, t.index))
    (run ((regs [(0, 0x11), (1, 0x22), (2, 0x33), (3, 0x44), (4, 0x55)]).setIndex 0x400) 0xF355) =
      some (0x11, 0x44, 0, 0x400) := by decide

/-- 2.5 rows 24 and 26. -/
theorem test_ldMiVx_outside :
    faultOf (run (State.reset.setIndex 0xFF1) 0xFF55) = some (.memOutOfBounds 0x1000 0x200 0xFF55) ∧
    faultOf (run (State.reset.setIndex 0xFFFF) 0xF155) = some (.memOutOfBounds 0xFFFF 0x200 0xF155) := by decide

/-- 2.5 row 27. -/
theorem test_ldVxMi : valueOf (fun t => (t.readV 0, t.readV 1, t.readV 2, t.readV 3, t.index))
    (run (at_ State.reset 0x400 [0xDE, 0xAD, 0xBE, 0xEF]) 0xF265) = some (0xDE, 0xAD, 0xBE, 0, 0x400) := by decide

/-- 2.5 row 30. -/
theorem test_ldVxMi_outside : faultOf (run (State.reset.setIndex 0xFFF) 0xF165) =
    some (.memOutOfBounds 0x1000 0x200 0xF165) := by decide

/-- 2.6 row 6 (needs G2): a partial overlap. -/
theorem test_drw : valueOf (fun t => (t.pixelAt 0 0, t.pixelAt 0 1, t.pixelAt 0 2, t.readV 15))
    (run (at_ (State.reset.setFb (Framebuffer.toggle Framebuffer.blank 0 0)) 0x300 [0xC0]) 0xD011) =
      some (false, true, false, 1) := by decide

/-- 2.6 rows 12 and 16. -/
theorem test_drw_outside :
    faultOf (run (at_ (regs [(0, 57)]) 0x300 [0xFF]) 0xD011) = some (.fbOutOfBounds 0 64 0x200 0xD011) ∧
    faultOf (run (at_ (regs [(1, 31)]) 0x300 [0xFF, 0x18]) 0xD012) = some (.fbOutOfBounds 32 3 0x200 0xD012) := by decide

/-- R170: the example, and 16 as a key index. -/
theorem test_skp : valueOf State.pc (run ((regs [(2, 5)]).setKeys (pressed [5])) 0xE29E) = some 0x204 ∧
    valueOf State.pc (run ((regs [(2, 5)]).setKeys (pressed [4])) 0xE29E) = some 0x202 := by decide
theorem test_skp_range : faultOf (run (regs [(2, 16)]) 0xE29E) =
    some (.keyIndexOutOfRange 16 0x200 0xE29E) := by decide

/-- R171: the example. -/
theorem test_sknp : valueOf State.pc (run ((regs [(2, 5)]).setKeys (pressed [5])) 0xE2A1) = some 0x202 ∧
    valueOf State.pc (run ((regs [(2, 5)]).setKeys (pressed [4])) 0xE2A1) = some 0x204 := by decide

/-- R172: the example, the least key wins. -/
theorem test_ldVxK : valueOf (fun t => (t.readV 1, t.pc)) (run (State.reset.setKeys (pressed [3, 7])) 0xF10A) =
    some (3, 0x202) := by decide

/-- R172: waiting. -/
theorem test_ldVxK_waits : valueOf (fun t => (t.readV 1, t.pc, t.dt)) (run ((regs [(1, 9)]).setDt 2) 0xF10A) =
    some (9, 0x200, 1) := by decide

/-- R173: the example. -/
theorem test_ldVxDt : valueOf (fun t => (t.readV 2, t.dt)) (run (State.reset.setDt 5) 0xF207) = some (5, 4) := by decide

/-- R174: the example. -/
theorem test_ldDtVx : valueOf (fun t => (t.dt, t.st)) (run (regs [(0, 0x0A)]) 0xF015) = some (9, 0) := by decide

/-- R175: the example. -/
theorem test_ldStVx : valueOf (fun t => (t.dt, t.st)) (run (regs [(0, 2)]) 0xF018) = some (0, 1) := by decide

/-! ### The cycle -/

/-- 2.2: an odd `pc`, the top of memory, and beyond it. -/
theorem test_fetch_edges :
    valueOf State.pc (run (State.reset.setPc 0x201) 0x6007) = some 0x203 ∧
    valueOf State.pc (run (State.reset.setPc 0xFFE) 0x6005) = some 0x1000 ∧
    faultOf (step (State.reset.setPc 0xFFF)) = some (.fetchOutOfBounds 0xFFF) ∧
    faultOf (step (State.reset.setPc 0x10FE)) = some (.fetchOutOfBounds 0x10FE) := by decide

/-- R233: with no program the first cycle is DecodeError(0x0000); R205: the record and the latch; R95: then nothing. -/
theorem test_fault_entry :
    cycle State.reset = State.reset.enterFault (.decodeError 0x200 0x0000) ∧
      cycle (cycle State.reset) = cycle State.reset := by decide

/-- S6: the program 60 05 70 03 after two cycles. -/
theorem test_reset_and_two_cycles : (State.resetWith [0x60, 0x05, 0x70, 0x03]).toOption.map
    (fun s => ((cycle (cycle s)).readV 0, (cycle (cycle s)).pc)) = some (8, 0x204) := by decide

/-! ### Witnesses: the hypotheses of every statement can be met -/

theorem witness_DecodeOfEncodeIsTheInstruction :
    (Instr.call 0xFFF).wellFormed = true ∧ (Instr.drw 0 15 15).wellFormed = true ∧
      (Instr.ldVxMi 15).wellFormed = true := by decide

theorem witness_EncodeOfDecodeIsTheWord : decode 0x2FFF = .ok (.call 0xFFF) ∧ decode 0xD0FF = .ok (.drw 0 15 15) := by
  decide

/-- A word is compared with all 34 rows. -/
theorem matches_none (w : Word) (h : opcodeMap.all (fun row => decide (w &&& row.1 ≠ row.2)) = true) :
    ∀ row ∈ opcodeMap, w &&& row.1 ≠ row.2 :=
  fun row hr => of_decide_eq_true (List.all_eq_true.1 h row hr)

theorem witness_WordIsLegalExactlyWhenItMatchesARow :
    (∀ row ∈ opcodeMap, 0x00EF#16 &&& row.1 ≠ row.2) ∧ (0xF0FF, 0xF065) ∈ opcodeMap ∧
      decode 0xFF65 = .ok (.ldVxMi 15) :=
  ⟨matches_none 0x00EF (by decide), by decide, by decide⟩

theorem witness_IllegalWordsAreTheSixGroups :
    decode 0x0FFF = .error (.noPattern 0x0FFF) ∧ decode 0x5001 = .error (.noPattern 0x5001) ∧
    decode 0x8008 = .error (.noPattern 0x8008) ∧ decode 0x9FFF = .error (.noPattern 0x9FFF) ∧
    decode 0xE0A0 = .error (.noPattern 0xE0A0) ∧ decode 0xF066 = .error (.noPattern 0xF066) := by decide

/-- The cycle at the top of memory fetches 6005. -/
def atTop : State := (State.reset.setPc 0xFFE).withFetchWord 16 0x6005

/-- The first cycle after reset fetches the word. -/
def first (w : Nat) : State := State.reset.withFetchWord 16 w

theorem witness_StepRunsTheDecodedInstruction :
    Fetches atTop 0x6005 (.ldVxNn 0 5) ∧ Fetches (first 0x00E0) 0x00E0 .cls :=
  ⟨⟨rfl, by decide, rfl, rfl⟩, rfl, by decide, rfl, rfl⟩

theorem witness_FetchBeyondMemoryFaults :
    (State.reset.setPc 0xFFF).halted = false ∧ (State.reset.setPc 0xFFF).pc.toNat > 0xFFE := by decide

theorem witness_WordOfNoPatternIsADecodeError :
    State.reset.halted = false ∧ State.reset.pc.toNat ≤ 0xFFE ∧
      (∀ row ∈ opcodeMap,
        wordOf (State.reset.byteAt State.reset.pc.toNat) (State.reset.byteAt (State.reset.pc.toNat + 1)) &&& row.1 ≠
          row.2) :=
  ⟨rfl, by decide, matches_none _ (by decide)⟩

theorem witness_HaltedCoreDoesNothingUntilReset :
    (cycle State.reset).halted = true ∧
    (∀ rom, HostEvent.reset rom ∉ [HostEvent.keys (pressed [0]), HostEvent.cycle]) ∧
    (List.replicate 3584 (0xFF : Byte)).length ≤ 3584 :=
  ⟨by decide, by simp, by rw [List.length_replicate]⟩

theorem witness_FaultFreezesTheStateOfTheCyclesStart :
    step State.reset = .fault (.decodeError 0x200 0x0000) ∧
      step (first 0x00EE) = .fault (.stackUnderflow 0 0x200 0x00EE) := ⟨rfl, rfl⟩

theorem witness_TimersTickOncePerCompletedCycle :
    (Fetches (first 0xF018) 0xF018 (.ldStVx 0) ∧ ∃ u, exec (.ldStVx 0) ((first 0xF018).fetched 0xF018) = .next u) ∧
    step State.reset = .fault (.decodeError 0x200 0x0000) ∧ (cycle State.reset).halted = true :=
  ⟨⟨⟨rfl, by decide, rfl, rfl⟩, _, rfl⟩, rfl, by decide⟩

theorem witness_PcAfterTheCycle :
    (Fetches atTop 0x6005 (.ldVxNn 0 5) ∧ ∃ t, step atTop = .next t) ∧
    (Fetches ((State.reset.setSp 15).withFetchWord 16 0x2400) 0x2400 (.call 0x400) ∧
      ∃ t, step ((State.reset.setSp 15).withFetchWord 16 0x2400) = .next t) ∧
    step State.reset = .fault (.decodeError 0x200 0x0000) :=
  ⟨⟨⟨rfl, by decide, rfl, rfl⟩, _, rfl⟩, ⟨⟨rfl, by decide, rfl, rfl⟩, _, rfl⟩, rfl⟩

theorem witness_RegistersAnInstructionMayWrite :
    (∃ t, exec (.ldVxMi 14) State.reset = .next t) ∧ writesReg 15 (.ldVxMi 14) = false ∧
      (∃ t, exec (.addVxVy 0 1) State.reset = .next t) ∧ writesReg 1 (.addVxVy 0 1) = false :=
  ⟨⟨_, rfl⟩, by decide, ⟨_, rfl⟩, by decide⟩

theorem witness_PartsAnInstructionMayWrite :
    (∃ t, exec (.call 0x300) State.reset = .next t) ∧ (∃ t, exec (.ldBVx 3) State.reset = .next t) ∧
      ∃ t, exec (.drw 0 0 0) State.reset = .next t :=
  ⟨⟨_, rfl⟩, ⟨_, rfl⟩, _, rfl⟩

theorem witness_InstructionsRaiseOnlyTheirListedFaults :
    exec .ret State.reset = .fault (.stackUnderflow 0 0x1FE 0) ∧ faultCodes (.ldVxK 3) = [] :=
  ⟨rfl, rfl⟩

theorem witness_OnlyKeyInstructionsSeeTheKeypad : readsKeys (.ldVxDt 0) = false ∧ readsKeys .cls = false := by decide

theorem witness_NoInstructionReadsTheSoundTimer :
    (∀ x, Instr.ldDtVx 3 ≠ .ldStVx x) ∧ ∃ x, Instr.ldStVx 3 = .ldStVx x :=
  ⟨by decide, 3, rfl⟩

theorem reset_stackAt (k : Nat) : State.reset.stackAt k = 0 := by
  simp only [State.stackAt, State.reset]
  split <;> simp

/-- The reset state with the word 6005 at 0x200 is legal, and its cycle completes. -/
theorem witness_StepKeepsTheStateLegal : (first 0x6005).Legal ∧ ∃ t, step (first 0x6005) = .next t := by
  refine ⟨⟨by decide, fun k => ?_, by decide, by decide, by decide⟩, _, rfl⟩
  rw [show (first 0x6005).stackAt k = State.reset.stackAt k from rfl, reset_stackAt]
  decide

theorem witness_EveryHostEventKeepsTheStateLegal : (first 0x6005).Legal := witness_StepKeepsTheStateLegal.1

theorem witness_EveryHostRunStaysLegal : ∃ s, State.resetWith [0x60, 0x05] = .ok s := ⟨_, rfl⟩

theorem witness_LegalStatesAreNeverRefused : (first 0x6005).Legal := witness_StepKeepsTheStateLegal.1

theorem witness_StateAfterReset :
    (List.replicate 3584 (0xFF : Byte)).length ≤ 3584 ∧ ([] : List Byte).length ≤ 3584 :=
  ⟨by rw [List.length_replicate], by decide⟩

theorem witness_OversizedImageIsALoadError : (List.replicate 3585 (0xFF : Byte)).length > 3584 := by
  rw [List.length_replicate]
  decide

theorem witness_ResetDiscardsThePreviousRun : ∃ t, State.resetWith [] = .ok t := ⟨_, rfl⟩

theorem witness_ReturnPopsTheStack :
    State.reset.sp = 0 ∧ (0 < (State.reset.setSp 1).sp.toNat ∧ (State.reset.setSp 1).sp.toNat ≤ 16) ∧
      0 < (State.reset.setSp 16).sp.toNat ∧ (State.reset.setSp 16).sp.toNat ≤ 16 := by decide

theorem witness_ReturnAboveSixteenIsRefused : (State.reset.setSp 17).sp.toNat > 16 := by decide

theorem witness_JumpSetsPc : (0xFFF : Word).toNat < 0x1000 := by decide

theorem witness_CallPushesTheAdvancedPc :
    (0xFFF : Word).toNat < 0x1000 ∧ (State.reset.setSp 16).sp.toNat ≥ 16 ∧ (State.reset.setSp 15).sp.toNat < 16 := by
  decide

theorem witness_ReturnResumesAfterTheCall : (State.reset.setSp 15).sp.toNat < 16 := by decide

theorem witness_SkipsOnRegisterCompareVxWithVy : (0 < 1 ∧ 1 < 16) ∧ 0 < 15 ∧ 15 < 16 := by decide

theorem witness_JumpWithOffsetAddsV0 : (0xFFF : Word).toNat < 0x1000 ∧
    valueOf (fun t => (decide (t.pc.toNat > 0xFFE), t.halted)) (exec (.jpV0 0xFFF) State.reset) = some (true, false) := by
  decide

/-- AddSetsCarry, SubtractSetsNoBorrow, ReverseSubtractSetsNoBorrow, ShiftRightPutsBitZeroInVF and ShiftLeftPutsBitSevenInVF:
a destination other than VF, and VF. -/
theorem witness_CompletesWithFlag : (14 : Reg) ≠ vF ∧ (15 : Reg) = vF := by decide

theorem witness_RandomByteIsMasked :
    (0x0F : Byte).getLsbD 4 = false ∧ (0x07 : Byte) &&& 0x0F = 0x07 := by decide

theorem witness_IndexIsLoadedWithAddressOrGlyph : (0xFFF : Word).toNat < 0x1000 := by decide

theorem witness_DecimalDigitsAreStored :
    (State.reset.setIndex 0xFFE).index.toNat + 2 > 0xFFF ∧ (first 0xF533).mem.wf ∧
      ((first 0xF533).setIndex 0xFFD).index.toNat + 2 ≤ 0xFFF := by decide

theorem witness_RegistersAreStored :
    (State.reset.setIndex 0xFF1).index.toNat + (15 : Reg).val > 0xFFF ∧ ((first 0xFF55).setIndex 0xFF0).mem.wf ∧
      ((first 0xFF55).setIndex 0xFF0).index.toNat + (15 : Reg).val ≤ 0xFFF := by decide

theorem witness_RegistersAreLoaded :
    (State.reset.setIndex 0x1000).index.toNat + (0 : Reg).val > 0xFFF ∧
      (State.reset.setIndex 0xFF0).index.toNat + (15 : Reg).val ≤ 0xFFF := by decide

theorem witness_StoreThenLoadRestoresRegisters :
    ((regs [(0, 0x11)]).setIndex 0xFF0).mem.wf ∧
      ((regs [(0, 0x11)]).setIndex 0xFF0).index.toNat + (15 : Reg).val ≤ 0xFFF := by decide

/-- The cycle at 0xFFC fetches the word, with `I = a`. -/
def lastButOne (a : Word) (w : Nat) : State := ((State.reset.setIndex a).setPc 0xFFC).withFetchWord 16 w

/-- At 0xFFC, so that the next fetch is the last one in memory: F155 over the next word, FF55 ending at its first byte,
and F533 ending at its second. -/
theorem witness_StoreIsSeenByTheNextFetch :
    ((lastButOne 0xFFE 0xF155).mem.wf ∧ Fetches (lastButOne 0xFFE 0xF155) 0xF155 (.ldMiVx 1) ∧
      (lastButOne 0xFFE 0xF155).index.toNat + (1 : Reg).val ≤ 0xFFF ∧
      (lastButOne 0xFFE 0xF155).pc.toNat + 2 ≤ 0xFFE) ∧
    ((lastButOne 0xFEF 0xFF55).mem.wf ∧ Fetches (lastButOne 0xFEF 0xFF55) 0xFF55 (.ldMiVx 15) ∧
      (lastButOne 0xFEF 0xFF55).index.toNat + (15 : Reg).val ≤ 0xFFF) ∧
    ((lastButOne 0xFFD 0xF533).mem.wf ∧ Fetches (lastButOne 0xFFD 0xF533) 0xF533 (.ldBVx 5) ∧
      (lastButOne 0xFFD 0xF533).index.toNat + 2 ≤ 0xFFF ∧ (lastButOne 0xFFD 0xF533).pc.toNat + 2 ≤ 0xFFE) ∧
    (0xFFE : Word).toNat ≤ 0xFFE :=
  ⟨⟨by decide, ⟨rfl, by decide, rfl, rfl⟩, by decide, by decide⟩,
    ⟨by decide, ⟨rfl, by decide, rfl, rfl⟩, by decide⟩,
    ⟨by decide, ⟨rfl, by decide, rfl, rfl⟩, by decide, by decide⟩, by decide⟩

/-- One row of eight set bits at column 56 of row 31, the pixel at its left end on: the last place on the grid. -/
def corner : State :=
  at_ ((regs [(0, 56), (1, 31)]).setFb (Framebuffer.toggle Framebuffer.blank 31 56)) 0x300 [0xFF]

theorem corner_passes : spritePasses corner ((corner.readV 0).toNat % 64) ((corner.readV 1).toNat % 32) 1 := by
  intro r hr
  obtain rfl : r = 0 := by omega
  unfold rowPasses spriteSet
  decide

theorem corner_covered (col : Nat) (h : col = 56 ∨ col = 63) :
    coveredBySet corner ((corner.readV 0).toNat % 64) ((corner.readV 1).toNat % 32) 1 31 col := by
  rcases h with rfl | rfl
  · exact ⟨0, 0, by decide, by decide, by decide, by decide, by unfold spriteSet; decide⟩
  · exact ⟨0, 7, by decide, by decide, by decide, by decide, by unfold spriteSet; decide⟩

theorem witness_DrawTogglesExactlyTheSetBits :
    (15 < 16) ∧ spritePasses corner ((corner.readV 0).toNat % 64) ((corner.readV 1).toNat % 32) 1 ∧
    (coveredBySet corner ((corner.readV 0).toNat % 64) ((corner.readV 1).toNat % 32) 1 31 56 ∧
      corner.pixelAt 31 56 = true) ∧
    (¬coveredBySet corner ((corner.readV 0).toNat % 64) ((corner.readV 1).toNat % 32) 1 30 56) ∧
    ∀ row col, coveredBySet corner ((corner.readV 0).toNat % 64) ((corner.readV 1).toNat % 32) 0 row col →
      corner.pixelAt row col = false :=
  ⟨by decide, corner_passes, ⟨corner_covered 56 (Or.inl rfl), by decide⟩,
    by rintro ⟨r, c, hr, _, hrow, _⟩
       rw [show (corner.readV 1).toNat % 32 = 31 by decide] at hrow
       omega,
    by rintro row col ⟨r, c, hr, _⟩
       omega⟩

/-- The row of `corner` one column further right, and one whose byte lies above memory. -/
theorem witness_DrawFaultsAtTheFirstFailingCheck :
    (0 < 1 ∧ (∀ q, q < 0 → rowPasses (State.reset.setIndex 0x1000) 0 0 q 8) ∧
      effectiveAddress (State.reset.setIndex 0x1000) 0 > 0xFFF) ∧
    rowPasses (corner.writeV 0 57) (((corner.writeV 0 57).readV 0).toNat % 64)
      (((corner.writeV 0 57).readV 1).toNat % 32) 0 7 ∧
    spriteSet (corner.writeV 0 57) 0 7 = true ∧ ((corner.writeV 0 57).readV 0).toNat % 64 + 7 > 63 := by
  refine ⟨⟨by decide, fun q hq => absurd hq (Nat.not_lt_zero q), by decide⟩, ?_, ?_, ?_⟩
  · unfold rowPasses spriteSet
    decide
  · unfold spriteSet
    decide
  · decide

theorem witness_DrawingTwiceRestoresTheFramebuffer :
    (0 : Reg) ≠ vF ∧ (1 : Reg) ≠ vF ∧
      spritePasses corner ((corner.readV 0).toNat % 64) ((corner.readV 1).toNat % 32) 1 :=
  ⟨by decide, by decide, corner_passes⟩

theorem witness_KeySkipsTestTheKeyInVx :
    ((regs [(2, 16)]).readV 2).toNat > 15 ∧ ((regs [(2, 15)]).readV 2).toNat ≤ 15 := by decide

theorem witness_KeyWaitTakesTheLeastPressedKey :
    (15 < 16 ∧ (State.reset.setKeys (pressed [15])).keyAt 15 = true ∧
      ∀ j, j < 15 → (State.reset.setKeys (pressed [15])).keyAt j = false) ∧
    (∀ k, k < 16 → (first 0xF10A).keyAt k = false) ∧ Fetches (first 0xF10A) 0xF10A (.ldVxK 1) :=
  ⟨by decide, by decide, rfl, by decide, rfl, rfl⟩

theorem witness_TimerInstructionsReadAndSetTheTimers :
    Fetches (first 0xF207) 0xF207 (.ldVxDt 2) ∧ Fetches (first 0xF215) 0xF215 (.ldDtVx 2) ∧
      Fetches (first 0xF218) 0xF218 (.ldStVx 2) :=
  ⟨⟨rfl, by decide, rfl, rfl⟩, ⟨rfl, by decide, rfl, rfl⟩, rfl, by decide, rfl, rfl⟩

theorem witness_FinishedProgramStaysFinished :
    (first 0x1200).Finished ∧ ((State.reset.setPc 0xFFE).withFetchWord 16 0x1FFE).Finished := by
  unfold State.Finished
  decide

end Sys2Proof.Tests
end

section
/-!
PROOFS. What every instruction leaves unchanged and where it leaves `pc`: one fact per instruction, from which the frame
and the table of `pc` (10_state.md R22, R23, R25, R27 to R32, R36, R37) follow.
-/

namespace Sys2Proof.Claims

open Sys2Proof.Machine

/-! ### The frame, part by part -/

/-- The part `p` holds the same field in `s` and `t`: equal as data, so that memory keeps its canonical form too. -/
def SamePart (s t : State) : Part → Prop
  | .index => t.index = s.index
  | .pc => t.pc = s.pc
  | .stack => t.stack = s.stack
  | .sp => t.sp = s.sp
  | .dt => t.dt = s.dt
  | .st => t.st = s.st
  | .keys => t.keys = s.keys
  | .fb => t.fb = s.fb
  | .mem => t.mem = s.mem
  | .ir => t.ir = s.ir
  | .latch => t.halted = s.halted ∧ t.fault = s.fault
  | .draws => t.draws = s.draws

/-- From `s` to `t` every part outside `ps` keeps its field; nothing is said of the general registers. -/
def KeepsParts (ps : List Part) (s t : State) : Prop := ∀ p, p ∉ ps → SamePart s t p

/-- Fields that are kept are kept as claims see them, entry by entry. -/
theorem KeepsParts.changesOnly {ds : List Reg} {ps : List Part} {s t : State} (h : KeepsParts ps s t)
    (hv : ∀ r, r ∉ ds → t.readV r = s.readV r) : ChangesOnly ds ps s t where
  regs := hv
  index := h .index
  pc := h .pc
  stack hp k := by rw [State.stackAt, State.stackAt, show t.stack = s.stack from h .stack hp]
  sp := h .sp
  dt := h .dt
  st := h .st
  keys hp k := by rw [State.keyAt, State.keyAt, show t.keys = s.keys from h .keys hp]
  fb hp r c := by rw [State.pixelAt, State.pixelAt, show t.fb = s.fb from h .fb hp]
  mem hp a := by rw [State.byteAt, State.byteAt, show t.mem = s.mem from h .mem hp]
  ir := h .ir
  latch := h .latch
  draws := h .draws

theorem KeepsParts.trans {ps : List Part} {s t u : State} (h : KeepsParts ps s t) (h' : KeepsParts ps t u) :
    KeepsParts ps s u := by
  intro p hp
  have h1 := h p hp
  have h2 := h' p hp
  cases p <;> simp_all [SamePart]

section Updates

variable {ps : List Part} (s : State)

/-- A change of the register file alone. -/
theorem keepsParts_regs (v : Vector Byte 16) : KeepsParts ps s { s with v := v } := by
  intro p _
  cases p <;> simp [SamePart]

theorem keepsParts_writeV (x : Reg) (b : Byte) : KeepsParts ps s (s.writeV x b) := keepsParts_regs s _

theorem keepsParts_loadRegs (rs : List Reg) : KeepsParts ps s (loadRegs s rs) := by
  obtain ⟨v, hv⟩ := loadRegs_eq s rs
  exact hv ▸ keepsParts_regs s v

/-- A state that agrees with `s` on every part but `p`. -/
theorem keepsParts_of_mem {p : Part} {t : State} (hp : p ∈ ps) (h : ∀ q, q ≠ p → SamePart s t q) :
    KeepsParts ps s t := fun q hq => h q fun e => hq (e ▸ hp)

theorem keepsParts_setIndex (a : Word) (h : Part.index ∈ ps := by simp [writesPart]) :
    KeepsParts ps s (s.setIndex a) :=
  keepsParts_of_mem s h fun q hq => by cases q <;> simp_all [SamePart]

theorem keepsParts_setPc (a : Word) (h : Part.pc ∈ ps := by simp [writesPart]) : KeepsParts ps s (s.setPc a) :=
  keepsParts_of_mem s h fun q hq => by cases q <;> simp_all [SamePart]

theorem keepsParts_setStack (k : Nat) (a : Word) (h : Part.stack ∈ ps := by simp [writesPart]) :
    KeepsParts ps s (s.setStack k a) :=
  keepsParts_of_mem s h fun q hq => by cases q <;> simp_all [SamePart]

theorem keepsParts_setSp (n : Byte) (h : Part.sp ∈ ps := by simp [writesPart]) : KeepsParts ps s (s.setSp n) :=
  keepsParts_of_mem s h fun q hq => by cases q <;> simp_all [SamePart]

theorem keepsParts_setDt (b : Byte) (h : Part.dt ∈ ps := by simp [writesPart]) : KeepsParts ps s (s.setDt b) :=
  keepsParts_of_mem s h fun q hq => by cases q <;> simp_all [SamePart]

theorem keepsParts_setSt (b : Byte) (h : Part.st ∈ ps := by simp [writesPart]) : KeepsParts ps s (s.setSt b) :=
  keepsParts_of_mem s h fun q hq => by cases q <;> simp_all [SamePart]

theorem keepsParts_setFb (f : Framebuffer) (h : Part.fb ∈ ps := by simp [writesPart]) :
    KeepsParts ps s (s.setFb f) :=
  keepsParts_of_mem s h fun q hq => by cases q <;> simp_all [SamePart]

theorem keepsParts_setMem (m : Memory) (h : Part.mem ∈ ps := by simp [writesPart]) :
    KeepsParts ps s (s.setMem m) :=
  keepsParts_of_mem s h fun q hq => by cases q <;> simp_all [SamePart]

theorem keepsParts_drawn (h : Part.draws ∈ ps := by simp [writesPart]) : KeepsParts ps s s.drawn :=
  keepsParts_of_mem s h fun q hq => by cases q <;> simp_all [SamePart]

theorem keepsParts_skipIf (c : Bool) (h : Part.pc ∈ ps := by simp [writesPart]) :
    KeepsParts ps s (s.skipIf c) := s.skipIf_eq c ▸ keepsParts_setPc s _ h

end Updates

/-- A completed instruction keeps every part it is not listed for, `pc` apart. -/
theorem exec_keepsParts {i : Instr} {s t : State} (h : exec i s = .next t) :
    KeepsParts (Part.pc :: writesPart i) s t := by
  cases i with
  | cls => cases h; exact keepsParts_setFb s _
  | ret =>
    obtain ⟨-, -, rfl⟩ := execRet_next h
    exact (keepsParts_setSp s _).trans (keepsParts_setPc _ _)
  | call nnn =>
    obtain ⟨-, rfl⟩ := execCall_next h
    exact ((keepsParts_setStack s _ _).trans (keepsParts_setSp _ _)).trans (keepsParts_setPc _ _)
  | jp _ | jpV0 _ => cases h; exact keepsParts_setPc s _
  | seVxNn _ _ | sneVxNn _ _ | seVxVy _ _ | sneVxVy _ _ => cases h; exact keepsParts_skipIf s _
  | skp _ | sknp _ =>
    obtain ⟨-, rfl⟩ := skipOnKey_next h
    exact keepsParts_skipIf s _
  | ldVxNn _ _ | addVxNn _ _ | ldVxVy _ _ | orVxVy _ _ | andVxVy _ _ | xorVxVy _ _ | ldVxDt _ =>
    cases h; exact keepsParts_writeV s _ _
  | addVxVy _ _ | subVxVy _ _ | shrVx _ _ | subnVxVy _ _ | shlVx _ _ => cases h; exact keepsParts_regs s _
  | ldINnn _ | addIVx _ | ldFVx _ => cases h; exact keepsParts_setIndex s _
  | rnd _ _ => cases h; exact (keepsParts_drawn s).trans (keepsParts_writeV _ _ _)
  | drw _ _ _ =>
    obtain ⟨-, rfl⟩ := execDrw_next h
    exact (keepsParts_setFb s _).trans (keepsParts_writeV _ _ _)
  | ldVxK _ =>
    obtain ⟨k, -, rfl⟩ | ⟨-, rfl⟩ := execLdVxK_next h
    · exact keepsParts_writeV s _ _
    · exact keepsParts_setPc s _
  | ldDtVx _ => cases h; exact keepsParts_setDt s _
  | ldStVx _ => cases h; exact keepsParts_setSt s _
  | ldBVx _ =>
    obtain ⟨-, rfl⟩ := execLdBVx_next h
    exact keepsParts_setMem s _
  | ldMiVx _ =>
    obtain ⟨-, rfl⟩ := execLdMiVx_next h
    exact keepsParts_setMem s _
  | ldVxMi _ =>
    obtain ⟨-, rfl⟩ := execLdVxMi_next h
    exact keepsParts_loadRegs s _

/-! ### `pc` (R25) -/

/-- The skip on top of the fetch's advance (R109). -/
theorem fetched_skipIf_pc (s : State) (w : Word) (c : Bool) :
    ((s.fetched w).skipIf c).pc = if c then s.pc + 4 else s.pc + 2 := by
  rw [State.skipIf_eq, State.setPc_pc, State.fetched_pc, BitVec.add_assoc]
  rfl

/-- The skip of a meaning whose condition is a proposition (R109). -/
theorem fetched_skipIf_decide_pc (s : State) (w : Word) (p : Prop) [Decidable p] :
    ((s.fetched w).skipIf (decide p)).pc = if p then s.pc + 4 else s.pc + 2 := by
  rw [fetched_skipIf_pc]
  simp only [decide_eq_true_eq]

/-- The target of Bnnn as the exact sum (R108). -/
theorem wideV_add (s : State) (x : Reg) (a : Word) :
    s.wideV x + a = BitVec.ofNat 16 ((s.readV x).toNat + a.toNat) := by
  apply BitVec.eq_of_toNat_eq
  simp [State.wideV]

/-- Some key is pressed exactly when the scan finds one (R172). -/
theorem any_keyAt (s : State) : (List.range 16).any s.keyAt = s.firstKey.isSome := by
  rw [State.firstKey, Bool.eq_iff_iff, List.find?_isSome, List.any_eq_true]

/-- Where `pc` stands after a completed execute step (R25). -/
theorem exec_fetched_pc {i : Instr} {s t : State} {w : Word} (h : exec i (s.fetched w) = .next t) :
    t.pc = pcAfter s i := by
  cases i with
  | ret => obtain ⟨-, -, rfl⟩ := execRet_next h; rfl
  | call _ => obtain ⟨-, rfl⟩ := execCall_next h; rfl
  | jpV0 nnn => cases h; exact wideV_add s v0 nnn
  | seVxNn _ _ | seVxVy _ _ => cases h; exact fetched_skipIf_decide_pc s w _
  | sneVxNn _ _ | sneVxVy _ _ => cases h; exact (fetched_skipIf_decide_pc s w _).trans (ite_not _ _ _)
  | skp x | sknp x =>
    obtain ⟨-, rfl⟩ := skipOnKey_next h
    rw [fetched_skipIf_pc, pcAfter, State.fetched_keyAt, State.fetched_readV]
    cases s.keyAt (s.readV x).toNat <;> rfl
  | drw _ _ _ => obtain ⟨-, rfl⟩ := execDrw_next h; rfl
  | ldVxK _ =>
    rw [pcAfter, any_keyAt]
    obtain ⟨k, hk, rfl⟩ | ⟨hk, rfl⟩ := execLdVxK_next h
    · rw [show s.firstKey = some k from hk]; rfl
    · rw [show s.firstKey = none from hk]; exact BitVec.add_sub_cancel s.pc 2
  | ldBVx _ => obtain ⟨-, rfl⟩ := execLdBVx_next h; rfl
  | ldMiVx _ => obtain ⟨-, rfl⟩ := execLdMiVx_next h; rfl
  | ldVxMi _ =>
    obtain ⟨-, rfl⟩ := execLdVxMi_next h
    exact keepsParts_loadRegs (ps := []) (s.fetched w) _ .pc List.not_mem_nil
  | _ => cases h; rfl

/-! ### General registers (R22) -/

/-- A completed instruction keeps every general register it is not listed for. -/
theorem exec_readV {i : Instr} {s t : State} (h : exec i s = .next t) {r : Reg} (hr : writesReg r i = false) :
    t.readV r = s.readV r := by
  have ne_of {x : Reg} (hx : decide (r = x) = false) : r ≠ x := of_decide_eq_false hx
  have ne_flag {x : Reg} (hx : decide (r = x ∨ r = vF) = false) : r ≠ x ∧ r ≠ vF :=
    not_or.1 (of_decide_eq_false hx)
  cases i with
  | ret => obtain ⟨-, -, rfl⟩ := execRet_next h; rfl
  | call _ => obtain ⟨-, rfl⟩ := execCall_next h; rfl
  | seVxNn _ _ | sneVxNn _ _ | seVxVy _ _ | sneVxVy _ _ => cases h; rw [State.skipIf_eq, State.setPc_readV]
  | skp _ | sknp _ =>
    obtain ⟨-, rfl⟩ := skipOnKey_next h
    rw [State.skipIf_eq, State.setPc_readV]
  | ldVxNn _ _ | addVxNn _ _ | ldVxVy _ _ | orVxVy _ _ | andVxVy _ _ | xorVxVy _ _ | ldVxDt _ =>
    cases h; exact State.writeV_readV_ne s _ (ne_of hr)
  | rnd _ _ => cases h; exact State.writeV_readV_ne s.drawn _ (ne_of hr)
  | addVxVy _ _ =>
    cases h
    rw [State.writeResultThenFlag_readV, if_neg (ne_flag hr).2, if_neg (ne_flag hr).1]
  | subVxVy _ _ | shrVx _ _ | subnVxVy _ _ | shlVx _ _ =>
    cases h
    rw [State.writeFlagThenResult_readV, if_neg (ne_flag hr).1, if_neg (ne_flag hr).2]
  | drw _ _ _ =>
    obtain ⟨-, rfl⟩ := execDrw_next h
    rw [State.writeFlag_readV, if_neg (ne_of hr), State.setFb_readV]
  | ldVxK _ =>
    obtain ⟨k, -, rfl⟩ | ⟨-, rfl⟩ := execLdVxK_next h
    · exact State.writeV_readV_ne s _ (ne_of hr)
    · rfl
  | ldBVx _ => obtain ⟨-, rfl⟩ := execLdBVx_next h; rfl
  | ldMiVx _ => obtain ⟨-, rfl⟩ := execLdMiVx_next h; rfl
  | ldVxMi x =>
    obtain ⟨-, rfl⟩ := execLdVxMi_next h
    rw [loadRegs_readV, if_neg fun hm => of_decide_eq_false hr ((mem_regsUpTo x r).1 hm)]
  | cls | jp _ | jpV0 _ | ldINnn _ | addIVx _ | ldFVx _ | ldDtVx _ | ldStVx _ => cases h; rfl

/-! ### The cycle of a fetched instruction -/

/-- R90: a fetched instruction is executed and the timers tick. -/
theorem Fetches.step_eq {s : State} {w : Word} {i : Instr} (h : Fetches s w i) :
    step s = endCycle (exec i (s.fetched w)) := by
  obtain ⟨hh, hpc, rfl, hd⟩ := h
  exact step_exec hh (fetchWord_of_le s hpc) hd

/-- The completed cycle of a fetched instruction. -/
theorem Fetches.step_next {s t : State} {w : Word} {i : Instr} (h : Fetches s w i) (hs : step s = .next t) :
    ∃ u, exec i (s.fetched w) = .next u ∧ t = u.tick := endCycle_eq_next (h.step_eq ▸ hs)

/-- R205: the machine after a faulting cycle. -/
theorem cycle_of_fault {s : State} {f : Fault} (h : step s = .fault f) : cycle s = s.enterFault f := by
  rw [cycle, h]

theorem cycle_of_next {s t : State} (h : step s = .next t) : cycle s = t := by rw [cycle, h]

theorem cycle_of_refused {s : State} {r : Refusal} (h : step s = .refused r) : cycle s = s := by rw [cycle, h]

end Sys2Proof.Claims

namespace Sys2Proof.Proofs

open Sys2Proof.Machine Sys2Proof.Claims

/-- Settles O13: the table of R25 holds of the execute step, and the tick and a fault leave `pc`. -/
theorem pcAfterTheCycle : Obligations.PcAfterTheCycle := by
  refine ⟨fun s t w i hf hs => ?_, fun s t w nnn hf hs => ?_, fun s f hs => ?_⟩
  · obtain ⟨u, hu, rfl⟩ := hf.step_next hs
    exact (State.tick_pc u).trans (exec_fetched_pc hu)
  · obtain ⟨u, hu, rfl⟩ := hf.step_next hs
    obtain ⟨hsp, rfl⟩ := execCall_next hu
    simp only [State.tick_stackAt, State.setPc_stackAt, State.setSp_stackAt]
    exact (State.setStack_stackAt _ _ _ _).trans (if_pos ⟨rfl, hsp⟩)
  · rw [cycle_of_fault hs, State.enterFault_pc]
/-- Settles O14: the frame of the general registers, instruction by instruction. -/
theorem registersAnInstructionMayWrite : Obligations.RegistersAnInstructionMayWrite :=
  fun _ _ _ h _ hr => exec_readV h hr

/-- Settles O15: the fields kept by the execute step are kept as claims see them. -/
theorem partsAnInstructionMayWrite : Obligations.PartsAnInstructionMayWrite :=
  fun _ _ _ h => (exec_keepsParts h).changesOnly fun r hr => absurd (List.mem_finRange r) hr

end Sys2Proof.Proofs
end

section
/-!
PROOFS. The invariant `State.Legal` (10_state.md R26, R28, R36, R37, R39): of the reset states, of every step, of every
event of the host, and so of every run.
-/

namespace Sys2Proof.Machine

open Sys2Proof.Claims

/-! ### The execute step, clause by clause -/

/-- R28: 00EE only lowers `sp`, 2nnn raises it below 16 only, nothing else writes it. -/
theorem exec_sp_le {i : Instr} {s t : State} (h : exec i s = .next t) (hs : s.sp.toNat ≤ 16) : t.sp.toNat ≤ 16 := by
  cases i with
  | ret =>
    obtain ⟨h0, -, rfl⟩ := execRet_next h
    rw [State.setPc_sp, State.setSp_sp]
    bv_omega
  | call _ =>
    obtain ⟨h0, rfl⟩ := execCall_next h
    rw [State.setPc_sp, State.setSp_sp]
    bv_omega
  | _ => rwa [show t.sp = s.sp from exec_keepsParts h .sp (by simp [writesPart])]

/-- R27: the stack receives the advanced `pc` of 2nnn alone, at most 0x1000 (R26). -/
theorem exec_stack_le {i : Instr} {s t : State} (h : exec i s = .next t) (hpc : s.pc.toNat ≤ 0x1000)
    (hs : ∀ k, (s.stackAt k).toNat ≤ 0x1000) (k : Nat) : (t.stackAt k).toNat ≤ 0x1000 := by
  cases i with
  | call _ =>
    obtain ⟨-, rfl⟩ := execCall_next h
    rw [State.setPc_stackAt, State.setSp_stackAt, State.setStack_stackAt]
    split
    · exact hpc
    · exact hs k
  | _ =>
    rw [State.stackAt, show t.stack = s.stack from exec_keepsParts h .stack (by simp [writesPart])]
    exact hs k

/-- R36: Fx33 and Fx55 store inside memory, nothing else writes it. -/
theorem exec_mem_wf {i : Instr} {s t : State} (h : exec i s = .next t) (hs : s.mem.wf) : t.mem.wf := by
  cases i with
  | ldBVx x =>
    obtain ⟨ha, rfl⟩ := execLdBVx_next h
    refine Memory.wf_load _ _ hs _ ?_
    simp only [effectiveAddress, decimalDigits, List.length_cons, List.length_nil, Config.memSize] at ha ⊢
    omega
  | ldMiVx x =>
    obtain ⟨ha, rfl⟩ := execLdMiVx_next h
    refine storeRegs_wf s _ _ hs fun r hr => ?_
    have hrx : r.val ≤ x.val := (mem_regsUpTo x r).1 hr
    simp only [effectiveAddress, Config.memSize] at ha ⊢
    omega
  | _ => rwa [show t.mem = s.mem from exec_keepsParts h .mem (by simp [writesPart])]

/-- R37: no execute step writes the latch or the record. -/
theorem exec_latch {i : Instr} {s t : State} (h : exec i s = .next t) : t.halted = s.halted ∧ t.fault = s.fault :=
  exec_keepsParts h .latch (by cases i <;> simp [writesPart])

/-- R26: a return address is at most 0x1000, a jump's target at most 0xFFF, Bnnn's at most 0xFFF + 255, and the fetch with
a skip adds 4 to an address of at most 0xFFE. -/
theorem pcAfter_le {s : State} {i : Instr} (hs : ∀ k, (s.stackAt k).toNat ≤ 0x1000) (hpc : s.pc.toNat ≤ 0xFFE)
    (hi : i.wellFormed = true) : (pcAfter s i).toNat ≤ 0x10FE := by
  have h2 : (s.pc + 2).toNat ≤ 0x10FE := by bv_omega
  have h4 : (s.pc + 4).toNat ≤ 0x10FE := by bv_omega
  have fits {nnn : Word} (h : addressFits nnn = true) : nnn.toNat < 0x1000 := of_decide_eq_true h
  cases i with
  | ret => exact (hs _).trans (by decide)
  | jp nnn | call nnn =>
    have := fits hi
    simp only [pcAfter]
    omega
  | jpV0 nnn =>
    have := fits hi
    have := (s.readV v0).isLt
    simp only [pcAfter, BitVec.toNat_ofNat]
    omega
  | seVxNn _ _ | sneVxNn _ _ | seVxVy _ _ | sneVxVy _ _ | skp _ | sknp _ =>
    simp only [pcAfter]
    split <;> assumption
  | ldVxK _ =>
    simp only [pcAfter]
    split
    · exact h2
    · omega
  | _ => exact h2

/-! ### The cycle -/

/-- What the invariant speaks of, kept: another state with these fields is legal too. -/
theorem State.Legal.of_fields {s t : State} (hs : s.Legal) (hsp : t.sp = s.sp) (hstack : t.stack = s.stack)
    (hpc : t.pc = s.pc) (hmem : t.mem = s.mem) (hf : t.halted = t.fault.isSome) : t.Legal where
  sp_le := hsp ▸ hs.sp_le
  stack_le k := by
    rw [State.stackAt, hstack]
    exact hs.stack_le k
  pc_le := hpc ▸ hs.pc_le
  mem_wf := hmem ▸ hs.mem_wf
  fault_iff := hf

theorem State.Legal.tick {s : State} (hs : s.Legal) : s.tick.Legal := hs.of_fields rfl rfl rfl rfl hs.fault_iff

theorem State.Legal.setKeys {s : State} (hs : s.Legal) (k : Keypad) : (s.setKeys k).Legal :=
  hs.of_fields rfl rfl rfl rfl hs.fault_iff

theorem State.Legal.enterFault {s : State} (hs : s.Legal) (f : Fault) : (s.enterFault f).Legal :=
  hs.of_fields rfl rfl rfl rfl rfl

/-- The execute step of a well-formed instruction, on the state its fetch left, keeps the invariant. -/
theorem State.Legal.exec_fetched {s t : State} {w : Word} {i : Instr} (hs : s.Legal) (hpc : s.pc.toNat ≤ 0xFFE)
    (hi : i.wellFormed = true) (h : exec i (s.fetched w) = .next t) : t.Legal where
  sp_le := exec_sp_le h hs.sp_le
  stack_le := exec_stack_le h (by rw [State.fetched_pc]; bv_omega) hs.stack_le
  pc_le := exec_fetched_pc h ▸ pcAfter_le hs.stack_le hpc hi
  mem_wf := exec_mem_wf h hs.mem_wf
  fault_iff := by
    obtain ⟨hh, hf⟩ := exec_latch h
    rw [hh, hf]
    exact hs.fault_iff

/-- A completed cycle keeps the invariant. -/
theorem State.Legal.step {s t : State} (hs : s.Legal) (h : step s = .next t) : t.Legal := by
  obtain ⟨-, rfl⟩ | ⟨w, i, u, -, hw, hd, hu, rfl⟩ := step_eq_next h
  · exact hs
  · exact (hs.exec_fetched (fetchWord_eq_some hw).1 (decode_wellFormed w i hd) hu).tick

/-- A cycle, whatever it answers, keeps the invariant. -/
theorem State.Legal.cycle {s : State} (hs : s.Legal) : (cycle s).Legal := by
  cases h : Machine.step s with
  | next t => rw [cycle_of_next h]; exact hs.step h
  | fault f => rw [cycle_of_fault h]; exact hs.enterFault f
  | refused r => rw [cycle_of_refused h]; exact hs

/-- A meaning that completes in one case and faults in the other is not refused. -/
theorem completes_or_faults_of_cases {p q : Prop} {o : Result} {t : State} {f : Fault}
    (h : p ∧ o = .next t ∨ q ∧ o = .fault f) : (∃ t, o = .next t) ∨ ∃ f, o = .fault f :=
  h.imp (fun ⟨_, e⟩ => ⟨t, e⟩) fun ⟨_, e⟩ => ⟨f, e⟩

/-- With `sp` at most 16 an instruction completes or faults; 00EE is the one that could be refused (assumption log 6). -/
theorem exec_completes_or_faults (i : Instr) (s : State) (hs : s.sp.toNat ≤ 16) :
    (∃ t, exec i s = .next t) ∨ ∃ f, exec i s = .fault f := by
  cases i with
  | ret =>
    obtain ⟨-, e⟩ | ⟨-, -, e⟩ | ⟨hgt, -⟩ := execRet_cases s
    · exact .inr ⟨_, e⟩
    · exact .inl ⟨_, e⟩
    · omega
  | call nnn => exact completes_or_faults_of_cases (execCall_cases nnn s)
  | drw x y n =>
    obtain ⟨f, -, e⟩ | ⟨-, e⟩ := execDrw_cases x y n s
    · exact .inr ⟨_, e⟩
    · exact .inl ⟨_, e⟩
  | skp x => exact completes_or_faults_of_cases (skipOnKey_cases x true s)
  | sknp x => exact completes_or_faults_of_cases (skipOnKey_cases x false s)
  | ldVxK x =>
    obtain ⟨k, -, e⟩ | ⟨-, e⟩ := execLdVxK_cases x s
    · exact .inl ⟨_, e⟩
    · exact .inl ⟨_, e⟩
  | ldBVx x => exact completes_or_faults_of_cases (execLdBVx_cases x s)
  | ldMiVx x => exact completes_or_faults_of_cases (execLdMiVx_cases x s)
  | ldVxMi x => exact completes_or_faults_of_cases (execLdVxMi_cases x s)
  | _ => exact .inl ⟨_, rfl⟩

/-- A cycle with `sp` at most 16 completes or faults. -/
theorem step_completes_or_faults (s : State) (hs : s.sp.toNat ≤ 16) :
    (∃ t, step s = .next t) ∨ ∃ f, step s = .fault f := by
  obtain ⟨-, e⟩ | ⟨-, -, e⟩ | ⟨w, d, -, -, -, e⟩ | ⟨w, i, -, -, -, e⟩ := step_cases s
  · exact .inl ⟨_, e⟩
  · exact .inr ⟨_, e⟩
  · exact .inr ⟨_, e⟩
  · obtain ⟨t, ht⟩ | ⟨f, hf⟩ := exec_completes_or_faults i (s.fetched w) hs
    · exact .inl ⟨_, e.trans (congrArg endCycle ht)⟩
    · exact .inr ⟨_, e.trans (congrArg endCycle hf)⟩

/-! ### Reset (R39, R231) -/

/-- The reset state with the image `rom` at 0x200, when it fits (R231, R233). -/
def loadedState (rom : List Byte) : State :=
  State.reset.setMem (Memory.load State.reset.mem Config.progBase rom)

theorem resetWith_of_le {rom : List Byte} (h : rom.length ≤ 3584) : State.resetWith rom = .ok (loadedState rom) :=
  if_pos h

theorem resetWith_of_gt {rom : List Byte} (h : 3584 < rom.length) :
    State.resetWith rom = .error (.tooLong rom.length) := if_neg (Nat.not_le.2 h)

/-- The loader's answer says that the image fits, and which state it is. -/
theorem resetWith_eq_ok {rom : List Byte} {t : State} (h : State.resetWith rom = .ok t) :
    rom.length ≤ 3584 ∧ t = loadedState rom := by
  by_cases hr : rom.length ≤ 3584
  · rw [resetWith_of_le hr] at h
    exact ⟨hr, (Except.ok.inj h).symm⟩
  · rw [resetWith_of_gt (Nat.lt_of_not_le hr)] at h
    cases h

@[simp] theorem reset_readV (r : Reg) : State.reset.readV r = 0 := by simp [State.readV, State.reset]

@[simp] theorem reset_stackAt (k : Nat) : State.reset.stackAt k = 0 := by simp [State.stackAt, State.reset]

@[simp] theorem reset_keyAt (k : Nat) : State.reset.keyAt k = false := by simp [State.keyAt, State.reset]

@[simp] theorem reset_pixelAt (r c : Nat) : State.reset.pixelAt r c = false := Framebuffer.pixel_blank r c

/-- A loaded byte stands where R233 puts it. -/
theorem loadedState_byteAt_image {rom : List Byte} {j : Nat} (hj : j < rom.length) :
    (loadedState rom).byteAt (0x200 + j) = rom[j] :=
  Memory.read_load_inside rom [] .nil 0x200 j hj

/-- Outside the image memory reads as after a reset without one (R235). -/
theorem loadedState_byteAt_outside (rom : List Byte) {a : Nat} (ha : a < 0x200 ∨ 0x200 + rom.length ≤ a) :
    (loadedState rom).byteAt a = unlistedByte a :=
  Memory.read_load_outside rom [] .nil 0x200 a ha

theorem reset_legal : State.reset.Legal where
  sp_le := by decide
  stack_le k := by simp
  pc_le := by decide
  mem_wf := Memory.wf_nil
  fault_iff := rfl

theorem loadedState_legal {rom : List Byte} (h : rom.length ≤ 3584) : (loadedState rom).Legal where
  sp_le := reset_legal.sp_le
  stack_le := reset_legal.stack_le
  pc_le := reset_legal.pc_le
  mem_wf := Memory.wf_load rom [] Memory.wf_nil 0x200 (by simp only [Config.memSize]; omega)
  fault_iff := rfl

/-! ### Events and runs of the host -/

/-- R237: a reset of a core that has run, the image fitting or rejected (assumption log 12). -/
theorem State.Legal.resetFrom {s : State} (hs : s.Legal) (rom : List Byte) : (s.resetFrom rom).Legal := by
  unfold State.resetFrom
  by_cases h : rom.length ≤ 3584
  · rw [resetWith_of_le h]
    exact (loadedState_legal h).of_fields rfl rfl rfl rfl rfl
  · rw [resetWith_of_gt (Nat.lt_of_not_le h)]
    exact hs

theorem State.Legal.onEvent {s : State} (hs : s.Legal) (e : HostEvent) : (s.onEvent e).Legal := by
  cases e with
  | keys k => exact hs.setKeys k
  | cycle => exact hs.cycle
  | reset rom => exact hs.resetFrom rom

theorem State.Legal.onEvents {s : State} (hs : s.Legal) (es : List HostEvent) : (s.onEvents es).Legal := by
  induction es generalizing s with
  | nil => exact hs
  | cons e es ih => exact ih (hs.onEvent e)

end Sys2Proof.Machine

namespace Sys2Proof.Proofs

open Sys2Proof.Machine

/-- Settles O19: the execute step keeps each clause of the invariant, and the tick touches none. -/
theorem stepKeepsTheStateLegal : Obligations.StepKeepsTheStateLegal := fun _ _ hs h => hs.step h

/-- Settles O58: key write, cycle and reset each keep the invariant. -/
theorem everyHostEventKeepsTheStateLegal : Obligations.EveryHostEventKeepsTheStateLegal :=
  fun _ e hs => hs.onEvent e

/-- Settles O21: the loaded state is legal and every event keeps it so, by induction on the events. -/
theorem everyHostRunStaysLegal : Obligations.EveryHostRunStaysLegal := by
  intro rom s es h
  obtain ⟨hlen, rfl⟩ := resetWith_eq_ok h
  exact (loadedState_legal hlen).onEvents es

/-- Settles O22: only 00EE with `sp` above 16 is ever refused. -/
theorem legalStatesAreNeverRefused : Obligations.LegalStatesAreNeverRefused :=
  fun s hs => step_completes_or_faults s hs.sp_le

/-- Settles O23: every piece of state of the loaded state, memory read below, in, between and above font and image. -/
theorem stateAfterReset : Obligations.StateAfterReset := by
  intro rom hlen
  refine ⟨loadedState rom, resetWith_of_le hlen, reset_readV, rfl, rfl, rfl, reset_stackAt, rfl, rfl, reset_keyAt,
    reset_pixelAt, rfl, rfl, rfl, fun a ha => ?_, fun i => ?_, fun a hlo hhi => ?_,
    fun j hj => loadedState_byteAt_image hj, fun a hlo _ => ?_⟩
  · rw [loadedState_byteAt_outside rom (by omega), unlistedByte_outside a (by omega)]
  · rw [loadedState_byteAt_outside rom (by omega), unlistedByte_font]
  · rw [loadedState_byteAt_outside rom (by omega), unlistedByte_outside a (by omega)]
  · rw [loadedState_byteAt_outside rom (by omega), unlistedByte_outside a (by omega)]

/-- Settles O20: every clause read off the values of R39. -/
theorem resetStateIsLegal : Obligations.ResetStateIsLegal := reset_legal

/-- Settles O27: of the three answers of 00EE the other two need `sp` at most 16. -/
theorem returnAboveSixteenIsRefused : Obligations.ReturnAboveSixteenIsRefused := by
  intro s hs
  obtain ⟨h0, -⟩ | ⟨-, hle, -⟩ | ⟨-, e⟩ := execRet_cases s
  · simp [h0] at hs
  · omega
  · exact e

end Sys2Proof.Proofs
end

section
/-!
PROOFS. What an instruction does not read (10_state.md R30, R31): a change of the key states and of ST passes through the
execute step. It compares two runs, so for Cxnn it rests on assumption log 2.
-/

namespace Sys2Proof.Claims

open Sys2Proof.Machine

/-- The state with its key states changed by `g` and its sound timer by `h`. -/
def mapKeysSt (g : Keypad → Keypad) (h : Byte → Byte) (s : State) : State := { s with keys := g s.keys, st := h s.st }

theorem mapKeysSt_setKeys (k : Keypad) (s : State) : mapKeysSt (fun _ => k) id s = s.setKeys k := rfl

theorem mapKeysSt_setSt (b : Byte) (s : State) : mapKeysSt id (fun _ => b) s = s.setSt b := rfl

theorem skipIf_mapKeysSt (g : Keypad → Keypad) (h : Byte → Byte) (s : State) (c : Bool) :
    (mapKeysSt g h s).skipIf c = mapKeysSt g h (s.skipIf c) := by cases c <;> rfl

theorem loadRegs_mapKeysSt (g : Keypad → Keypad) (h : Byte → Byte) (s : State) (rs : List Reg) :
    loadRegs (mapKeysSt g h s) rs = mapKeysSt g h (loadRegs s rs) :=
  List.foldl_hom (mapKeysSt g h) fun _ _ => rfl

/-- A change of next states passes through a choice that does not see it. -/
theorem ite_eq_onNext {f : State → State} {c : Prop} [Decidable c] {a a' b b' : Result} (ha : a' = onNext f a)
    (hb : b' = onNext f b) : (if c then a' else b') = onNext f (if c then a else b) := by
  split
  · exact ha
  · exact hb

/-- An instruction that reads no key, unless the keys are as before, and is not Fx18, unless ST is, does the same whatever
the key states and ST are, and leaves them. -/
theorem exec_mapKeysSt (i : Instr) (s : State) (g : Keypad → Keypad) (h : Byte → Byte)
    (hg : readsKeys i = true → g = id) (hh : ∀ x, i = .ldStVx x → h = id) :
    exec i (mapKeysSt g h s) = onNext (mapKeysSt g h) (exec i s) := by
  cases i with
  | ret => exact ite_eq_onNext rfl (ite_eq_onNext rfl rfl)
  | call _ | ldBVx _ | ldMiVx _ => exact ite_eq_onNext rfl rfl
  | ldVxMi x => exact ite_eq_onNext (congrArg Host.Outcome.next (loadRegs_mapKeysSt g h s _)) rfl
  | seVxNn _ _ | sneVxNn _ _ | seVxVy _ _ | sneVxVy _ _ =>
    exact congrArg Host.Outcome.next (skipIf_mapKeysSt g h s _)
  | skp _ | sknp _ =>
    obtain rfl := hg rfl
    exact ite_eq_onNext (congrArg Host.Outcome.next (skipIf_mapKeysSt id h s _)) rfl
  | ldVxK x =>
    obtain rfl := hg rfl
    have hkey : (mapKeysSt id h s).firstKey = s.firstKey := rfl
    simp only [exec, execLdVxK, hkey]
    cases s.firstKey <;> rfl
  | ldStVx x =>
    obtain rfl := hh x rfl
    rfl
  | drw x y n =>
    have hcheck (xPos yPos : Nat) : spriteCheck (mapKeysSt g h s) xPos yPos n = spriteCheck s xPos yPos n := rfl
    have hv (r : Reg) : (mapKeysSt g h s).readV r = s.readV r := rfl
    simp only [exec, execDrw, hv, hcheck]
    cases spriteCheck s (spriteColumn (s.readV x)) (spriteRow (s.readV y)) n <;> rfl
  | _ => rfl

end Sys2Proof.Claims

namespace Sys2Proof.Proofs

open Sys2Proof.Machine Sys2Proof.Claims

/-- Settles O17: the keys change, ST does not. -/
theorem onlyKeyInstructionsSeeTheKeypad : Obligations.OnlyKeyInstructionsSeeTheKeypad :=
  fun i s k hi => exec_mapKeysSt i s (fun _ => k) id (fun h => by simp [hi] at h) fun _ _ => rfl

/-- Settles O18: ST changes, the keys do not; Fx18 overwrites whatever ST was. -/
theorem noInstructionReadsTheSoundTimer : Obligations.NoInstructionReadsTheSoundTimer := by
  refine fun i s b => ⟨fun hi => ?_, ?_⟩
  · exact exec_mapKeysSt i s id (fun _ => b) (fun _ => rfl) fun x h => absurd h (hi x)
  · rintro x rfl
    rfl

end Sys2Proof.Proofs
end

section
/-!
PROOFS. Self-modifying code (20_memory.md R62, 70_reset_and_hazards.md R243): a completed Fx55 or Fx33 cycle is the state
with its store in memory and the timers ticked, and a fetch reads that memory and nothing else.
-/

namespace Sys2Proof.Claims

open Sys2Proof.Machine

/-! ### The cycle of a store inside memory -/

/-- R144 within R90: the completed cycle of Fx55. -/
theorem Fetches.step_ldMiVx {s : State} {w : Word} {x : Reg} (h : Fetches s w (.ldMiVx x))
    (hx : s.index.toNat + x.val ≤ 0xFFF) :
    step s = .next ((s.fetched w).setMem (storeRegs (s.fetched w) (regsUpTo x) s.mem)).tick := by
  obtain ⟨-, e⟩ | ⟨hout, -⟩ := execLdMiVx_cases x (s.fetched w)
  · exact h.step_eq.trans (congrArg endCycle e)
  · exact absurd hx (Nat.not_le.2 hout)

/-- R143 within R90: the completed cycle of Fx33. -/
theorem Fetches.step_ldBVx {s : State} {w : Word} {x : Reg} (h : Fetches s w (.ldBVx x))
    (hx : s.index.toNat + 2 ≤ 0xFFF) :
    step s = .next ((s.fetched w).setMem (s.mem.load s.index.toNat (decimalDigits (s.readV x)))).tick := by
  obtain ⟨-, e⟩ | ⟨hout, -⟩ := execLdBVx_cases x (s.fetched w)
  · exact h.step_eq.trans (congrArg endCycle e)
  · exact absurd hx (Nat.not_le.2 hout)

/-- R144: memory after V0 to Vx are stored, byte by byte, as claims see it. -/
theorem storeRegs_read_eq_byteAfterRegisters (s : State) (w : Word) (x : Reg) (h : s.mem.wf) (a : Nat) :
    (storeRegs (s.fetched w) (regsUpTo x) s.mem).read a = byteAfterRegisters s x a :=
  storeRegs_upTo_read (s.fetched w) x s.mem h.1 a

/-- R143: memory after the digits of Vx are stored, byte by byte, as claims see it. -/
theorem load_read_eq_byteAfterDigits (s : State) (x : Reg) (h : s.mem.wf) (a : Nat) :
    (s.mem.load s.index.toNat (decimalDigits (s.readV x))).read a = byteAfterDigits s x a :=
  decimalDigits_load_read s.mem h.1 s.index.toNat (s.readV x) a

/-! ### Fetching what was stored -/

/-- R51, R91: a fetch from `p` takes the bytes `f` that memory holds at `p` and `p + 1`. -/
theorem fetchWord_setPc_of_read {m : Memory} {f : Nat → Byte} (hf : ∀ a, m.read a = f a) (t : State)
    (hm : t.mem = m) {p : Word} (hp : p.toNat ≤ 0xFFE) :
    (t.setPc p).fetchWord = some (wordOf (f p.toNat) (f (p.toNat + 1))) := by
  obtain rfl := hm
  rw [← hf, ← hf]
  exact fetchWord_of_le (t.setPc p) hp

/-- R62, R243: the cycle of `s` that leaves the memory `m` and advances `pc` by 2 is followed by a fetch from `m`, from
where `pc` now stands and from anywhere else. -/
theorem fetches_after_store {s : State} {m : Memory} {f : Nat → Byte} (w : Word) (hf : ∀ a, m.read a = f a)
    (hs : step s = .next ((s.fetched w).setMem m).tick) :
    ∃ t, step s = .next t ∧ t.pc = s.pc + 2 ∧
      (s.pc.toNat + 2 ≤ 0xFFE → t.fetchWord = some (wordOf (f (s.pc.toNat + 2)) (f (s.pc.toNat + 3)))) ∧
      ∀ p : Word, p.toNat ≤ 0xFFE → (t.setPc p).fetchWord = some (wordOf (f p.toNat) (f (p.toNat + 1))) := by
  refine ⟨_, hs, rfl, fun hpc => ?_, fun p hp => fetchWord_setPc_of_read hf _ rfl hp⟩
  have hadd : (s.pc + 2).toNat = s.pc.toNat + 2 := BitVec.toNat_add_of_lt (show s.pc.toNat + 2 < 2 ^ 16 by omega)
  have hnext := fetchWord_setPc_of_read hf ((s.fetched w).setMem m).tick rfl (hadd ▸ hpc)
  rw [hadd] at hnext
  exact hnext

end Sys2Proof.Claims

namespace Sys2Proof.Proofs

open Sys2Proof.Machine Sys2Proof.Claims

/-- Settles O49: each store's cycle leaves its bytes in memory, and every fetch reads memory. -/
theorem storeIsSeenByTheNextFetch : Obligations.StoreIsSeenByTheNextFetch :=
  fun s w x hm =>
    ⟨fun h hx => fetches_after_store w (storeRegs_read_eq_byteAfterRegisters s w x hm) (h.step_ldMiVx hx),
      fun h hx => fetches_after_store w (load_read_eq_byteAfterDigits s x hm) (h.step_ldBVx hx)⟩

end Sys2Proof.Proofs
end

section
/-!
PROOFS. Decoding and encoding undo each other, and the decoder accepts the words of the opcode map R76 and rejects those
of the six groups R77 (30_encoding.md R71 to R78).
-/

namespace Sys2Proof

/-! ### The word of given fields (R71) -/

theorem groupOf_lt (w : Word) : groupOf w < 16 := (w.extractLsb' 12 4).isLt

/-- Format A: group and address make up the word. -/
theorem wordA_fields {w : Word} {m : Nat} (hm : m = 0x1000 * groupOf w) : wordA m (fieldNNN w) = w := by
  apply BitVec.eq_of_toNat_eq
  rw [wordA, BitVec.toNat_ofNat, fieldNNN_toNat, hm, groupOf_eq]
  omega

/-- Format XK: group, register and byte make up the word. -/
theorem wordXK_fields {w : Word} {m : Nat} (hm : m = 0x1000 * groupOf w) : wordXK m (fieldX w) (fieldNN w) = w := by
  apply BitVec.eq_of_toNat_eq
  rw [wordXK, BitVec.toNat_ofNat, fieldX_val, fieldNN_toNat, hm, groupOf_eq]
  omega

/-- Formats XY and XYN: group, registers and low nibble make up the word. -/
theorem wordXYN_fields {w : Word} {m n : Nat} (hm : m = 0x1000 * groupOf w) (hn : n = fieldN w) :
    wordXYN m (fieldX w) (fieldY w) n = w := by
  apply BitVec.eq_of_toNat_eq
  rw [wordXYN, BitVec.toNat_ofNat, fieldX_val, fieldY_val, hn, fieldN_eq, hm, groupOf_eq]
  omega

/-- Format XF: group, register and function byte make up the word. -/
theorem wordXF_fields {w : Word} {m : Nat} (hm : m = 0x1000 * groupOf w + (fieldNN w).toNat) :
    wordXF m (fieldX w) = w := by
  apply BitVec.eq_of_toNat_eq
  rw [wordXF, BitVec.toNat_ofNat, fieldX_val, hm, fieldNN_toNat, groupOf_eq]
  omega

/-- Decoding reads every field of a well-formed instruction's word back, format by format. -/
theorem decode_encode {i : Instr} (h : i.wellFormed = true) : decode (encode i) = .ok i := by
  cases i with
  | cls | ret => rfl
  | jp nnn | call nnn | ldINnn nnn | jpV0 nnn =>
    have hn : nnn.toNat < 0x1000 := by simpa [Instr.wellFormed, addressFits] using h
    simp [encode, decode, fields_wordA, hn]
  | seVxNn x nn | sneVxNn x nn | ldVxNn x nn | addVxNn x nn | rnd x nn =>
    simp [encode, decode, fields_wordXK]
  | seVxVy x y | sneVxVy x y =>
    simp [encode, decode, fields_wordXYN]
  | ldVxVy x y | orVxVy x y | andVxVy x y | xorVxVy x y | addVxVy x y | subVxVy x y | shrVx x y | subnVxVy x y
  | shlVx x y =>
    simp [encode, decode, decodeGroup8, fields_wordXYN]
  | drw x y n =>
    have hn : n < 16 := by simpa [Instr.wellFormed, rowCountFits] using h
    simp [encode, decode, fields_wordXYN, hn]
  | skp x | sknp x =>
    simp [encode, decode, decodeGroupE, fields_wordXF]
  | ldVxDt x | ldVxK x | ldDtVx x | ldStVx x | addIVx x | ldFVx x | ldBVx x | ldMiVx x | ldVxMi x =>
    simp [encode, decode, decodeGroupF, fields_wordXF]

/-! ### What the decoder can answer (R75, R77) -/

/-- `w` lies in one of the six groups of illegal words of R77. -/
def InIllegalGroup (w : Word) : Prop :=
  (w.toNat / 0x1000 = 0x0 ∧ w ≠ 0x00E0 ∧ w ≠ 0x00EE) ∨
  (w.toNat / 0x1000 = 0x5 ∧ w.toNat % 0x10 ≠ 0) ∨
  (w.toNat / 0x1000 = 0x8 ∧ w.toNat % 0x10 ∈ [0x8, 0x9, 0xA, 0xB, 0xC, 0xD, 0xF]) ∨
  (w.toNat / 0x1000 = 0x9 ∧ w.toNat % 0x10 ≠ 0) ∨
  (w.toNat / 0x1000 = 0xE ∧ w.toNat % 0x100 ∉ [0x9E, 0xA1]) ∨
  (w.toNat / 0x1000 = 0xF ∧ w.toNat % 0x100 ∉ [0x07, 0x0A, 0x15, 0x18, 0x1E, 0x29, 0x33, 0x55, 0x65])

/-- Group 0: which of its words are illegal. -/
theorem inIllegalGroup_iff_of_group0 {w : Word} (hg : groupOf w = 0x0) :
    InIllegalGroup w ↔ w ≠ 0x00E0#16 ∧ w ≠ 0x00EE#16 := by
  simp [InIllegalGroup, ← groupOf_eq, hg]

/-- Groups 5 and 9: which of their words are illegal. -/
theorem inIllegalGroup_iff_of_group59 {w : Word} (hg : groupOf w = 0x5 ∨ groupOf w = 0x9) :
    InIllegalGroup w ↔ fieldN w ≠ 0 := by
  obtain hg | hg := hg <;> simp [InIllegalGroup, ← groupOf_eq, ← fieldN_eq, hg]

/-- Group 8: which of its words are illegal. -/
theorem inIllegalGroup_iff_of_group8 {w : Word} (hg : groupOf w = 0x8) :
    InIllegalGroup w ↔ fieldN w ∈ [0x8, 0x9, 0xA, 0xB, 0xC, 0xD, 0xF] := by
  simp [InIllegalGroup, ← groupOf_eq, ← fieldN_eq, hg]

/-- Group E: which of its words are illegal. -/
theorem inIllegalGroup_iff_of_groupE {w : Word} (hg : groupOf w = 0xE) :
    InIllegalGroup w ↔ (fieldNN w).toNat ∉ [0x9E, 0xA1] := by
  simp [InIllegalGroup, ← groupOf_eq, ← fieldNN_toNat, hg]

/-- Group F: which of its words are illegal. -/
theorem inIllegalGroup_iff_of_groupF {w : Word} (hg : groupOf w = 0xF) :
    InIllegalGroup w ↔ (fieldNN w).toNat ∉ [0x07, 0x0A, 0x15, 0x18, 0x1E, 0x29, 0x33, 0x55, 0x65] := by
  simp [InIllegalGroup, ← groupOf_eq, ← fieldNN_toNat, hg]

/-- Every word of the other groups is legal. -/
theorem not_inIllegalGroup_of_group {w : Word} (h : groupOf w ∉ [0x0, 0x5, 0x8, 0x9, 0xE, 0xF]) :
    ¬ InIllegalGroup w := by
  simp_all [InIllegalGroup, ← groupOf_eq]

/-- The answers R75 allows the decoder for the word `w`: the instruction whose word it is, when `w` is legal, and the
rejection by name, when it is not. -/
inductive DecodeAnswer (w : Word) : Except DecodeReject Instr → Prop
  | accepted {i : Instr} (henc : encode i = w) (hlegal : ¬ InIllegalGroup w) : DecodeAnswer w (.ok i)
  | rejected (hillegal : InIllegalGroup w) : DecodeAnswer w (.error (.noPattern w))

theorem decodeGroup0_answer {w : Word} (hg : groupOf w = 0x0) : DecodeAnswer w (decodeGroup0 w) := by
  have hiff := inIllegalGroup_iff_of_group0 hg
  unfold decodeGroup0
  split
  · next h0 => exact .accepted h0.symm fun h => (hiff.1 h).1 h0
  · next h0 =>
    split
    · next h1 => exact .accepted h1.symm fun h => (hiff.1 h).2 h1
    · next h1 => exact .rejected (hiff.2 ⟨h0, h1⟩)

/-- Groups 5 and 9: the low nibble decides. -/
theorem ite_fieldN_answer {w : Word} {i : Instr} (hg : groupOf w = 0x5 ∨ groupOf w = 0x9)
    (henc : fieldN w = 0 → encode i = w) :
    DecodeAnswer w (if fieldN w = 0 then .ok i else .error (.noPattern w)) := by
  have hiff := inIllegalGroup_iff_of_group59 hg
  split
  · next hn => exact .accepted (henc hn) (by simp [hiff, hn])
  · next hn => exact .rejected (hiff.2 hn)

theorem decodeGroup8_answer {w : Word} (hg : groupOf w = 0x8) : DecodeAnswer w (decodeGroup8 w) := by
  have hiff := inIllegalGroup_iff_of_group8 hg
  have hlt : fieldN w < 16 := (w.extractLsb' 0 4).isLt
  unfold decodeGroup8
  split
  case h_10 => exact .rejected (hiff.2 (by simp_all; omega))
  all_goals
    next hn => exact .accepted (wordXYN_fields (by rw [hg]) hn.symm) (by simp [hiff, hn])

/-- Format XF: a word of group E or F whose low byte is the function code `c`. -/
theorem accepted_of_fieldNN {w : Word} {i : Instr} {c : Byte} (hc : fieldNN w = c)
    (henc : encode i = wordXF (0x1000 * groupOf w + c.toNat) (fieldX w)) (hlegal : ¬ InIllegalGroup w) :
    DecodeAnswer w (.ok i) :=
  .accepted (henc.trans (wordXF_fields (by rw [hc]))) hlegal

theorem decodeGroupE_answer {w : Word} (hg : groupOf w = 0xE) : DecodeAnswer w (decodeGroupE w) := by
  have hiff := inIllegalGroup_iff_of_groupE hg
  unfold decodeGroupE
  repeat' split
  case isFalse => exact .rejected (hiff.2 (by simp_all [← BitVec.toNat_inj]))
  all_goals
    next hc => exact accepted_of_fieldNN hc (by rw [hg]; rfl) (by simp [hiff, hc])

theorem decodeGroupF_answer {w : Word} (hg : groupOf w = 0xF) : DecodeAnswer w (decodeGroupF w) := by
  have hiff := inIllegalGroup_iff_of_groupF hg
  unfold decodeGroupF
  repeat' split
  case isFalse => exact .rejected (hiff.2 (by simp_all [← BitVec.toNat_inj]))
  all_goals
    next hc => exact accepted_of_fieldNN hc (by rw [hg]; rfl) (by simp [hiff, hc])

/-- R75, group by group: the decoder gives the answer its word calls for. -/
theorem decode_answer (w : Word) : DecodeAnswer w (decode w) := by
  unfold decode
  split
  case h_1 hg => exact decodeGroup0_answer hg
  case h_2 hg | h_3 hg | h_11 hg | h_12 hg =>
    exact .accepted (wordA_fields (by rw [hg])) (not_inIllegalGroup_of_group (by simp [hg]))
  case h_4 hg | h_5 hg | h_7 hg | h_8 hg | h_13 hg =>
    exact .accepted (wordXK_fields (by rw [hg])) (not_inIllegalGroup_of_group (by simp [hg]))
  case h_6 hg => exact ite_fieldN_answer (.inl hg) fun hn => wordXYN_fields (by rw [hg]) hn.symm
  case h_9 hg => exact decodeGroup8_answer hg
  case h_10 hg => exact ite_fieldN_answer (.inr hg) fun hn => wordXYN_fields (by rw [hg]) hn.symm
  case h_14 hg => exact .accepted (wordXYN_fields (by rw [hg]) rfl) (not_inIllegalGroup_of_group (by simp [hg]))
  case h_15 hg => exact decodeGroupE_answer hg
  case h_16 hg => exact decodeGroupF_answer hg
  case h_17 =>
    have hlt := groupOf_lt w
    simp_all
    omega

theorem DecodeAnswer.of_ok {w : Word} {i : Instr} : DecodeAnswer w (.ok i) → encode i = w ∧ ¬ InIllegalGroup w
  | .accepted henc hlegal => ⟨henc, hlegal⟩

theorem DecodeAnswer.of_error {w : Word} {e : DecodeReject} :
    DecodeAnswer w (.error e) → e = .noPattern w ∧ InIllegalGroup w
  | .rejected hillegal => ⟨rfl, hillegal⟩

/-- A word that decodes is the word of its instruction, and legal. -/
theorem decode_eq_ok {w : Word} {i : Instr} (h : decode w = .ok i) : encode i = w ∧ ¬ InIllegalGroup w :=
  (h ▸ decode_answer w).of_ok

/-- A word that does not decode is rejected by name, and illegal. -/
theorem decode_eq_error {w : Word} {e : DecodeReject} (h : decode w = .error e) :
    e = .noPattern w ∧ InIllegalGroup w :=
  (h ▸ decode_answer w).of_error

theorem decode_eq_noPattern_iff (w : Word) : decode w = .error (.noPattern w) ↔ InIllegalGroup w := by
  refine ⟨fun h => (decode_eq_error h).2, fun h => ?_⟩
  cases hd : decode w with
  | ok i => exact absurd h (decode_eq_ok hd).2
  | error e => rw [(decode_eq_error hd).1]

theorem exists_decode_of_legal {w : Word} (h : ¬ InIllegalGroup w) : ∃ i, decode w = .ok i := by
  cases hd : decode w with
  | ok i => exact ⟨i, rfl⟩
  | error e => exact absurd (decode_eq_error hd).2 h

/-! ### The opcode map (R76) -/

theorem opcodeRowOf_mem (i : Instr) : opcodeRowOf i ∈ opcodeMap := by
  cases i <;> simp [opcodeRowOf, opcodeMap]

/-- The four kinds of rows: a fixed word, or a fixed group with a free rest, a fixed low nibble or a fixed low byte. -/
theorem opcodeMap_row_cases : ∀ row ∈ opcodeMap,
    (row.1 = 0xFFFF#16 ∧ row.2 ∈ [0x00E0#16, 0x00EE#16]) ∨
    (row.1 = 0xF000#16 ∧ row.2.toNat / 0x1000 ∉ [0x0, 0x5, 0x8, 0x9, 0xE, 0xF]) ∨
    (row.1 = 0xF00F#16 ∧ row.2.toNat ∈ [0x5000, 0x9000, 0x8000, 0x8001, 0x8002, 0x8003, 0x8004, 0x8005, 0x8006,
      0x8007, 0x800E]) ∨
    (row.1 = 0xF0FF#16 ∧ row.2.toNat ∈ [0xE09E, 0xE0A1, 0xF007, 0xF00A, 0xF015, 0xF018, 0xF01E, 0xF029, 0xF033,
      0xF055, 0xF065]) := by
  simp [opcodeMap]

/-- A word that matches a row lies in no illegal group. -/
theorem not_inIllegalGroup_of_row {w : Word} {row : OpcodeRow} (hrow : row ∈ opcodeMap) (h : w &&& row.1 = row.2) :
    ¬ InIllegalGroup w := by
  have hnat := congrArg BitVec.toNat h
  obtain ⟨hm, hp⟩ | ⟨hm, hp⟩ | ⟨hm, hp⟩ | ⟨hm, hp⟩ := opcodeMap_row_cases row hrow
  · obtain rfl : w = row.2 := by rw [← h, hm]; exact BitVec.and_allOnes.symm
    simp only [List.mem_cons, List.not_mem_nil, or_false] at hp
    obtain hp | hp := hp <;> simp [InIllegalGroup, hp]
  · rw [hm, and_F000_toNat] at hnat
    have hg : row.2.toNat / 0x1000 = groupOf w := by rw [groupOf_eq]; omega
    exact not_inIllegalGroup_of_group (hg ▸ hp)
  · rw [hm, and_F00F_toNat] at hnat
    simp only [InIllegalGroup, List.mem_cons, List.not_mem_nil, or_false] at hp ⊢
    omega
  · rw [hm, and_F0FF_toNat] at hnat
    simp only [InIllegalGroup, List.mem_cons, List.not_mem_nil, or_false] at hp ⊢
    omega

/-- The word of a well-formed instruction matches the instruction's row, constructor by constructor. -/
theorem encode_matches_row : ∀ i : Instr, Laws.EncodeRow.Statement i
  | .cls => Laws.EncodeRow.cls
  | .ret => Laws.EncodeRow.ret
  | .jp nnn => Laws.EncodeRow.jp nnn
  | .call nnn => Laws.EncodeRow.call nnn
  | .seVxNn x nn => Laws.EncodeRow.seVxNn x nn
  | .sneVxNn x nn => Laws.EncodeRow.sneVxNn x nn
  | .seVxVy x y => Laws.EncodeRow.seVxVy x y
  | .ldVxNn x nn => Laws.EncodeRow.ldVxNn x nn
  | .addVxNn x nn => Laws.EncodeRow.addVxNn x nn
  | .ldVxVy x y => Laws.EncodeRow.ldVxVy x y
  | .orVxVy x y => Laws.EncodeRow.orVxVy x y
  | .andVxVy x y => Laws.EncodeRow.andVxVy x y
  | .xorVxVy x y => Laws.EncodeRow.xorVxVy x y
  | .addVxVy x y => Laws.EncodeRow.addVxVy x y
  | .subVxVy x y => Laws.EncodeRow.subVxVy x y
  | .shrVx x y => Laws.EncodeRow.shrVx x y
  | .subnVxVy x y => Laws.EncodeRow.subnVxVy x y
  | .shlVx x y => Laws.EncodeRow.shlVx x y
  | .sneVxVy x y => Laws.EncodeRow.sneVxVy x y
  | .ldINnn nnn => Laws.EncodeRow.ldINnn nnn
  | .jpV0 nnn => Laws.EncodeRow.jpV0 nnn
  | .rnd x nn => Laws.EncodeRow.rnd x nn
  | .drw x y n => Laws.EncodeRow.drw x y n
  | .skp x => Laws.EncodeRow.skp x
  | .sknp x => Laws.EncodeRow.sknp x
  | .ldVxDt x => Laws.EncodeRow.ldVxDt x
  | .ldVxK x => Laws.EncodeRow.ldVxK x
  | .ldDtVx x => Laws.EncodeRow.ldDtVx x
  | .ldStVx x => Laws.EncodeRow.ldStVx x
  | .addIVx x => Laws.EncodeRow.addIVx x
  | .ldFVx x => Laws.EncodeRow.ldFVx x
  | .ldBVx x => Laws.EncodeRow.ldBVx x
  | .ldMiVx x => Laws.EncodeRow.ldMiVx x
  | .ldVxMi x => Laws.EncodeRow.ldVxMi x

/-- A word that decodes matches the row of its instruction. -/
theorem decode_matches_row {w : Word} {i : Instr} (h : decode w = .ok i) :
    w &&& (opcodeRowOf i).1 = (opcodeRowOf i).2 :=
  (decode_eq_ok h).1 ▸ encode_matches_row i (decode_wellFormed w i h)

/-- Two rows that differ in a bit both fix share no word. -/
theorem rows_disjoint {p q : OpcodeRow} (h : p.2 &&& q.1 ≠ q.2 &&& p.1) (w : Word) :
    ¬ (w &&& p.1 = p.2 ∧ w &&& q.1 = q.2) := by
  rintro ⟨hp, hq⟩
  rw [← hp, ← hq, BitVec.and_assoc, BitVec.and_assoc, BitVec.and_comm p.1] at h
  exact h rfl

/-- Of any two rows, a bit that both fix has two values. -/
theorem opcodeMap_pairwise_differ : opcodeMap.Pairwise fun p q => p.2 &&& q.1 ≠ q.2 &&& p.1 := by
  decide

end Sys2Proof

namespace Sys2Proof.Proofs

/-- Settles O2: each format's word keeps every field of the instruction. -/
theorem decodeOfEncodeIsTheInstruction : Obligations.DecodeOfEncodeIsTheInstruction := fun _ h => decode_encode h

/-- Settles O3: the fields read from a word make it up again. -/
theorem encodeOfDecodeIsTheWord : Obligations.EncodeOfDecodeIsTheWord :=
  fun w i h => ⟨decode_wellFormed w i h, (decode_eq_ok h).1⟩

/-- Settles O4: the word of a decoded instruction matches its row, and a word that matches a row is not illegal. -/
theorem wordIsLegalExactlyWhenItMatchesARow : Obligations.WordIsLegalExactlyWhenItMatchesARow := by
  intro w
  have hrow (i : Instr) (h : decode w = .ok i) :
      opcodeRowOf i ∈ opcodeMap ∧ w &&& (opcodeRowOf i).1 = (opcodeRowOf i).2 :=
    ⟨opcodeRowOf_mem i, decode_matches_row h⟩
  refine ⟨⟨fun ⟨i, h⟩ => ⟨_, hrow i h⟩, fun ⟨row, hmem, h⟩ => ?_⟩, hrow, fun hnone => ?_⟩
  · exact exists_decode_of_legal (not_inIllegalGroup_of_row hmem h)
  · cases hd : decode w with
    | ok i => exact absurd (hrow i hd).2 (hnone _ (hrow i hd).1)
    | error e => rw [(decode_eq_error hd).1]

/-- Settles O5: any two rows differ in a bit that both fix. -/
theorem opcodePatternsArePairwiseDisjoint : Obligations.OpcodePatternsArePairwiseDisjoint :=
  ⟨rfl, opcodeMap_pairwise_differ.imp fun h w => rows_disjoint h w⟩

/-- Settles O6: the decoder rejects a word exactly in the illegal groups. -/
theorem illegalWordsAreTheSixGroups : Obligations.IllegalWordsAreTheSixGroups := decode_eq_noPattern_iff

/-- Settles O1: each word is, bit by bit, the word of the instruction it stands for. -/
theorem decodeReadsTheTableWords : Obligations.DecodeReadsTheTableWords :=
  ⟨decode_encode (i := .cls) rfl, decode_encode (i := .call 0x20A) rfl, decode_encode (i := .seVxVy 1 2) rfl,
    decode_encode (i := .subVxVy 1 2) rfl, decode_encode (i := .rnd 3 0x0F) rfl, decode_encode (i := .drw 0 1 3) rfl,
    decode_encode (i := .sknp 2) rfl, decode_encode (i := .ldMiVx 3) rfl⟩

end Sys2Proof.Proofs
end

section
/-!
PROOFS. The cycle (40_cycle.md R90, R91, R94, R95, R97; 60_exceptions.md R203): the tick as R94 writes it, the halted
core, and the jump to itself that ends a program.
-/

namespace Sys2Proof.Claims

open Sys2Proof.Machine

/-! ### The timer tick (R94) -/

/-- One timer's line of the tick, as R94 writes it. -/
theorem countDown_eq_ite (b : Byte) : countDown b = if b.toNat > 0 then b - 1 else b := by
  apply BitVec.eq_of_toNat_eq
  rw [countDown_toNat]
  split <;> bv_omega

theorem keepsParts_tick (s : State) : KeepsParts [.dt, .st] s s.tick := by
  intro p hp
  cases p <;> simp_all [SamePart]

/-- A tick with both timers at 0 does nothing. -/
theorem tick_of_zero {s : State} (hdt : s.dt = 0) (hst : s.st = 0) : s.tick = s := by
  rw [State.tick, hdt, hst, countDown_zero]
  exact State.ext_fields rfl rfl rfl rfl rfl hdt.symm hst.symm rfl rfl rfl rfl rfl rfl rfl

/-! ### The halted core (R95) -/

theorem cycle_halted {s : State} (h : s.halted = true) : cycle s = s := cycle_of_next (step_halted h)

theorem keepsParts_setKeys (s : State) (k : Keypad) : KeepsParts [.keys] s (s.setKeys k) := by
  intro p hp
  cases p <;> simp_all [SamePart]

/-- Without a reset, events leave a halted core with other keys at most: a key write overwrites the keys, a cycle does
nothing. -/
theorem onEvents_halted (es : List HostEvent) {s : State} (h : s.halted = true)
    (hes : ∀ rom, HostEvent.reset rom ∉ es) : ∃ k, s.onEvents es = s.setKeys k := by
  induction es generalizing s with
  | nil => exact ⟨s.keys, rfl⟩
  | cons e es ih =>
    have hrest (rom : List Byte) : HostEvent.reset rom ∉ es := fun hm => hes rom (List.mem_cons_of_mem e hm)
    cases e with
    | keys k => exact ih (s := s.setKeys k) h hrest
    | cycle =>
      obtain ⟨k, hk⟩ := ih h hrest
      exact ⟨k, (congrArg (State.onEvents · es) (cycle_halted h)).trans hk⟩
    | reset rom => exact absurd List.mem_cons_self (hes rom)

/-- R237: the reset of a core that has run, with an image that fits. -/
theorem resetFrom_of_le (s : State) {rom : List Byte} (h : rom.length ≤ 3584) :
    s.resetFrom rom = { loadedState rom with draws := s.draws } := by
  rw [State.resetFrom, resetWith_of_le h]

/-! ### The jump to itself (R97) -/

theorem keepsParts_ir (s : State) (w : Word) : KeepsParts [.ir] s { s with ir := w } :=
  keepsParts_of_mem s List.mem_cons_self fun q hq => by cases q <;> simp_all [SamePart]

/-- R102 within R90: the cycle of a jump to its own address puts `pc` back, so that the fetched word and the tick are all
that is left of it. -/
theorem Fetches.step_jp_self {s : State} {w : Word} (h : Fetches s w (.jp s.pc)) :
    step s = .next { s with ir := w }.tick := h.step_eq

/-- A finished program fetches the jump to its own address. -/
theorem finished_fetches {s : State} (h : s.Finished) : Fetches s (encode (.jp s.pc)) (.jp s.pc) := by
  obtain ⟨hh, hw, hpc, -, -⟩ := h
  exact ⟨hh, hpc, (fetchWord_eq_some hw).2, decode_encode (decide_eq_true (by omega))⟩

/-- The cycle of a finished program loads `ir`. -/
theorem finished_step {s : State} (h : s.Finished) : step s = .next { s with ir := encode (.jp s.pc) } := by
  rw [(finished_fetches h).step_jp_self]
  obtain ⟨-, -, -, hdt, hst⟩ := h
  exact congrArg Host.Outcome.next (tick_of_zero hdt hst)

end Sys2Proof.Claims

namespace Sys2Proof.Proofs

open Sys2Proof Sys2Proof.Machine Sys2Proof.Claims

/-- Settles O10: a halted core takes new keys and nothing else, and a reset builds its state anew. -/
theorem haltedCoreDoesNothingUntilReset : Obligations.HaltedCoreDoesNothingUntilReset := by
  refine fun s h => ⟨step_halted h, cycle_halted h, fun es hes => ?_, fun rom hrom => ?_⟩
  · obtain ⟨k, hk⟩ := onEvents_halted es h hes
    rw [hk]
    exact ⟨h, (keepsParts_setKeys s k).changesOnly fun _ _ => rfl⟩
  · rw [State.onEvent, resetFrom_of_le s hrom]
    exact ⟨rfl, rfl⟩

/-- Settles O12: a completed cycle ends in the tick of the execute step's state; the other two cycles leave the timers. -/
theorem timersTickOncePerCompletedCycle : Obligations.TimersTickOncePerCompletedCycle := by
  refine ⟨fun s u w i hf hu => ?_, fun s f hs => ?_, fun s h => ?_⟩
  · have hstep : step s = .next u.tick := hf.step_eq.trans (congrArg endCycle hu)
    exact ⟨u.tick, hstep, countDown_toNat u.dt, countDown_toNat u.st,
      (keepsParts_tick u).changesOnly fun _ _ => rfl⟩
  · rw [cycle_of_fault hs]
    exact ⟨rfl, rfl⟩
  · rw [cycle_halted h]
    exact ⟨rfl, rfl⟩

/-- Settles O57: the cycle loads `ir`, which neither the fetch nor the timers read. -/
theorem finishedProgramStaysFinished : Obligations.FinishedProgramStaysFinished :=
  fun s h => ⟨_, finished_step h, h, (keepsParts_ir s _).changesOnly fun _ _ => rfl⟩

/-- Settles O7: the cycle of a fetched instruction, its tick written out. -/
theorem stepRunsTheDecodedInstruction : Obligations.StepRunsTheDecodedInstruction := by
  intro s w i h
  rw [h.step_eq, State.fetched]
  cases exec i { s with ir := w, pc := s.pc + 2 } with
  | next u => rw [endCycle_next, State.tick, countDown_eq_ite, countDown_eq_ite]
  | fault _ => rfl
  | refused _ => rfl

/-- Settles O8: above 0xFFE no word is fetched. -/
theorem fetchBeyondMemoryFaults : Obligations.FetchBeyondMemoryFaults :=
  fun s h hpc => ⟨step_fetch_fault h (fetchWord_of_gt s hpc), rfl⟩

end Sys2Proof.Proofs
end

section
/-!
PROOFS. Control transfer (41_control_flow.md R100 to R109): the frame of an instruction that writes no general register,
the answers of 00EE and 2nnn, the skip, the illegal words of groups 5 and 9, and the target of Bnnn.
-/

namespace Sys2Proof.Claims

open Sys2Proof.Machine

/-! ### Completion with the frame -/

/-- A completed instruction that writes no general register, with the frame of its parts. -/
theorem completes_of_next {i : Instr} {s t : State} {ps : List Part} {effect : State → Prop}
    (h : exec i s = .next t) (heffect : effect t) (hregs : ∀ r, writesReg r i = false)
    (hparts : Part.pc :: writesPart i ⊆ ps) : Completes i s [] ps effect :=
  have hkeep : KeepsParts ps s t := fun p hp => exec_keepsParts h p fun hm => hp (hparts hm)
  ⟨t, h, heffect, hkeep.changesOnly fun r _ => exec_readV h (hregs r)⟩

/-! ### Call and return (R101, R103) -/

/-- R101: 00EE with a return address on the stack. -/
theorem exec_ret_of_pos {s : State} (h0 : 0 < s.sp.toNat) (h16 : s.sp.toNat ≤ 16) :
    exec .ret s = .next ((s.setSp (s.sp - 1)).setPc (s.stackAt (s.sp.toNat - 1))) := by
  obtain ⟨hz, -⟩ | ⟨-, -, e⟩ | ⟨hgt, -⟩ := execRet_cases s
  · simp [hz] at h0
  · exact e
  · omega

/-- R101, D8: 00EE with an empty stack. -/
theorem exec_ret_of_zero {s : State} (h : s.sp = 0) :
    exec .ret s = .fault (.stackUnderflow 0 (s.pc - 2) s.ir) := by
  obtain ⟨-, e⟩ | ⟨hpos, -⟩ | ⟨hgt, -⟩ := execRet_cases s
  · exact h ▸ e
  · simp [h] at hpos
  · simp [h] at hgt

/-- R103: 2nnn with room on the stack. -/
theorem exec_call_of_lt (nnn : Word) {s : State} (h : s.sp.toNat < 16) :
    exec (.call nnn) s = .next (((s.setStack s.sp.toNat s.pc).setSp (s.sp + 1)).setPc nnn) := by
  obtain ⟨-, e⟩ | ⟨hge, -⟩ := execCall_cases nnn s
  · exact e
  · omega

/-- R103, D8: 2nnn with a full stack. -/
theorem exec_call_of_ge (nnn : Word) {s : State} (h : 16 ≤ s.sp.toNat) :
    exec (.call nnn) s = .fault (.stackOverflow s.sp (s.pc - 2) s.ir) := by
  obtain ⟨hlt, -⟩ | ⟨-, e⟩ := execCall_cases nnn s
  · omega
  · exact e

/-- R103: what the stack holds after 2nnn. -/
theorem call_stackAt (nnn : Word) {s : State} (h : s.sp.toNat < 16) (k : Nat) :
    (((s.setStack s.sp.toNat s.pc).setSp (s.sp + 1)).setPc nnn).stackAt k =
      if k = s.sp.toNat then s.pc else s.stackAt k := by
  rw [State.setPc_stackAt, State.setSp_stackAt, State.setStack_stackAt]
  simp only [h, and_true]

/-- R28: `sp` counts a pushed entry without wrapping. -/
theorem sp_add_one_toNat {s : State} (h : s.sp.toNat < 16) : (s.sp + 1).toNat = s.sp.toNat + 1 := by bv_omega

/-! ### The skip (R109) and the words of groups 5 and 9 -/

/-- Where `pc` stands after a skip whose condition is a proposition. -/
theorem skipIf_decide_pc (s : State) (p : Prop) [Decidable p] :
    (s.skipIf (decide p)).pc = if p then s.pc + 2 else s.pc := by
  rw [State.skipIf_eq, State.setPc_pc]
  simp only [decide_eq_true_eq]

/-- A skip instruction completes with the skip's `pc` and nothing else changed. -/
theorem completes_skipIf {i : Instr} {s : State} {p : Prop} [Decidable p]
    (h : exec i s = .next (s.skipIf (decide p))) (hregs : ∀ r, writesReg r i = false) (hparts : writesPart i = []) :
    Completes i s [] [.pc] fun t => t.pc = if p then s.pc + 2 else s.pc :=
  completes_of_next h (skipIf_decide_pc s p) hregs (by rw [hparts]; exact List.Subset.refl _)

/-- R75, D6: groups 5 and 9 have a row for the low nibble 0 alone. -/
theorem decode_patternXYN_of_group59 {m n : Nat} (x y : Reg) (hm : m = 0x5000 ∨ m = 0x9000) (h0 : 0 < n)
    (hn : n < 16) : decode (patternXYN m x y n) = .error (.noPattern (patternXYN m x y n)) := by
  obtain ⟨hgroup, -, -, hnibble⟩ := fields_wordXYN m x y n hn (by omega) (by omega)
  have hg : groupOf (wordXYN m x y n) = 0x5 ∨ groupOf (wordXYN m x y n) = 0x9 := by omega
  have hne : fieldN (wordXYN m x y n) ≠ 0 := by omega
  exact (decode_eq_noPattern_iff _).2 ((inIllegalGroup_iff_of_group59 hg).2 hne)

/-! ### The jump with offset (R108) -/

/-- A byte plus a 12-bit address fits a word, so the target of Bnnn is the exact sum. -/
theorem wideV_add_toNat (s : State) (x : Reg) {nnn : Word} (h : nnn.toNat < 0x1000) :
    (s.wideV x + nnn).toNat = (s.readV x).toNat + nnn.toNat := by
  have := (s.readV x).isLt
  rw [wideV_add, BitVec.toNat_ofNat, Nat.mod_eq_of_lt (by omega)]

end Sys2Proof.Claims

namespace Sys2Proof.Proofs

open Sys2Proof Sys2Proof.Machine Sys2Proof.Claims

/-- Settles O26: of the answers of 00EE, `sp = 0` leaves the fault and `0 < sp ≤ 16` the pop. -/
theorem returnPopsTheStack : Obligations.ReturnPopsTheStack := by
  refine ⟨decode_encode (i := .ret) rfl, fun s => ⟨exec_ret_of_zero, fun h0 h16 => ?_⟩⟩
  have hsp : (s.sp - 1).toNat = s.sp.toNat - 1 := by bv_omega
  exact completes_of_next (exec_ret_of_pos h0 h16) ⟨hsp, rfl⟩ (fun _ => rfl) (List.Subset.refl _)

/-- Settles O28: the meaning of 1nnn writes `pc` alone. -/
theorem jumpSetsPc : Obligations.JumpSetsPc :=
  fun nnn h => ⟨decode_encode (i := .jp nnn) (decide_eq_true h),
    fun _ => completes_of_next rfl rfl (fun _ => rfl) (List.Subset.refl _)⟩

/-- Settles O29: the push writes the entry at `sp` alone. -/
theorem callPushesTheAdvancedPc : Obligations.CallPushesTheAdvancedPc := by
  refine fun nnn h => ⟨decode_encode (i := .call nnn) (decide_eq_true h),
    fun s => ⟨exec_call_of_ge nnn, fun hsp => ?_⟩⟩
  refine completes_of_next (exec_call_of_lt nnn hsp) ⟨rfl, sp_add_one_toNat hsp, ?_, fun k hk => ?_⟩ (fun _ => rfl)
    (by simp [writesPart])
  · rw [call_stackAt nnn hsp, if_pos rfl]
  · rw [call_stackAt nnn hsp, if_neg hk]

/-- Settles O30: the return finds `sp` one above the entry the call pushed. -/
theorem returnResumesAfterTheCall : Obligations.ReturnResumesAfterTheCall := by
  refine fun nnn s h => ⟨_, exec_call_of_lt nnn h, fun p => ?_⟩
  have hsp := sp_add_one_toNat h
  have hpos : 0 < (s.sp + 1).toNat := by omega
  have hle : (s.sp + 1).toNat ≤ 16 := by omega
  refine ⟨_, exec_ret_of_pos hpos hle, ?_, BitVec.add_sub_cancel s.sp 1⟩
  exact (call_stackAt nnn h _).trans (if_pos (Nat.sub_eq_of_eq_add hsp))

/-- Settles O31: both meanings are the skip on a comparison of Vx with the byte. -/
theorem skipsOnByteCompareVxWithNn : Obligations.SkipsOnByteCompareVxWithNn :=
  fun x nn => ⟨⟨decode_encode (i := .seVxNn x nn) rfl, decode_encode (i := .sneVxNn x nn) rfl⟩,
    fun _ => ⟨completes_skipIf rfl (fun _ => rfl) rfl, completes_skipIf rfl (fun _ => rfl) rfl⟩⟩

/-- Settles O32: both meanings are the skip on a comparison of Vx with Vy, and no row has another low nibble. -/
theorem skipsOnRegisterCompareVxWithVy : Obligations.SkipsOnRegisterCompareVxWithVy :=
  fun x y => ⟨⟨decode_encode (i := .seVxVy x y) rfl, decode_encode (i := .sneVxVy x y) rfl⟩,
    fun _ h0 hn =>
      ⟨decode_patternXYN_of_group59 x y (.inl rfl) h0 hn, decode_patternXYN_of_group59 x y (.inr rfl) h0 hn⟩,
    fun _ => ⟨completes_skipIf rfl (fun _ => rfl) rfl, completes_skipIf rfl (fun _ => rfl) rfl⟩⟩

/-- Settles O33: the exact sum is the new `pc`, and above 0xFFE no word is fetched. -/
theorem jumpWithOffsetAddsV0 : Obligations.JumpWithOffsetAddsV0 := by
  refine fun nnn h => ⟨decode_encode (i := .jpV0 nnn) (decide_eq_true h), fun s => ?_⟩
  refine completes_of_next rfl ⟨wideV_add_toNat s v0 h, fun hpc hh => ?_⟩ (fun _ => rfl) (List.Subset.refl _)
  exact step_fetch_fault hh (fetchWord_of_gt _ hpc)

end Sys2Proof.Proofs
end

section
/-!
PROOFS. Register load, arithmetic, logic and the random byte (42_load_alu.md R120 to R133): the completion of an
instruction that writes one register, with or without a flag, and the byte operations as arithmetic on numbers.
-/

namespace Sys2Proof.Claims

open Sys2Proof.Machine

/-! ### Completion with one register written -/

theorem Completes.mono {i : Instr} {s : State} {ds : List Reg} {ps : List Part} {p q : State → Prop}
    (h : Completes i s ds ps p) (hpq : ∀ t, p t → q t) : Completes i s ds ps q := by
  obtain ⟨t, ht, hp, hframe⟩ := h
  exact ⟨t, ht, hpq t hp, hframe⟩

/-- An instruction whose meaning is one register write, with the frame of that register. -/
theorem completes_of_writeV {i : Instr} {s : State} {x : Reg} {b : Byte} (h : exec i s = .next (s.writeV x b)) :
    Completes i s [x] [] fun t => t.readV x = b :=
  ⟨_, h, State.writeV_readV_self s x b, (keepsParts_writeV s x b).changesOnly fun _ hr =>
    State.writeV_readV_ne s b (List.ne_of_not_mem_cons hr)⟩

/-! ### Completion with a flag (R132, R133) -/

/-- The frame of a flag writer: Vx and VF alone, in whichever order they are written. -/
theorem changesOnly_of_regs {s t : State} {x : Reg} (hkeep : KeepsParts [] s t)
    (hread : ∀ r, r ≠ x → r ≠ vF → t.readV r = s.readV r) : ChangesOnly [x, vF] [] s t :=
  hkeep.changesOnly fun r hr => by
    simp only [List.mem_cons, List.not_mem_nil, or_false, not_or] at hr
    obtain ⟨hrx, hrf⟩ := hr
    exact hread r hrx hrf

/-- R126: result, then flag; with `x = F` the flag stands. -/
theorem completesWithFlag_of_resultThenFlag {i : Instr} {s : State} {x : Reg} {b : Byte} {c : Bool} {n : Nat}
    (h : exec i s = .next (s.writeResultThenFlag x b c)) (hb : b.toNat = n) :
    CompletesWithFlag i s x (BitVec.ofNat 8 n) c (flagByte c) := by
  rw [← hb, BitVec.ofNat_toNat, BitVec.setWidth_eq]
  have hread := s.writeResultThenFlag_readV x b c
  have hflag := (hread vF).trans (if_pos rfl)
  refine ⟨_, h, ⟨fun hx => ⟨?_, hflag⟩, fun _ => hflag⟩,
    changesOnly_of_regs (keepsParts_regs s _) fun r hrx hrf => ?_⟩
  · rw [hread, if_neg hx, if_pos rfl]
  · rw [hread, if_neg hrf, if_neg hrx]

/-- R127 to R130: flag, then result; with `x = F` the result stands. -/
theorem completesWithFlag_of_flagThenResult {i : Instr} {s : State} {x : Reg} {b : Byte} {c : Bool} {n : Nat}
    (h : exec i s = .next (s.writeFlagThenResult x b c)) (hb : b.toNat = n) :
    CompletesWithFlag i s x (BitVec.ofNat 8 n) c (BitVec.ofNat 8 n) := by
  rw [← hb, BitVec.ofNat_toNat, BitVec.setWidth_eq]
  have hread := s.writeFlagThenResult_readV x b c
  have hresult := (hread x).trans (if_pos rfl)
  refine ⟨_, h, ⟨fun hx => ⟨hresult, ?_⟩, ?_⟩, changesOnly_of_regs (keepsParts_regs s _) fun r hrx hrf => ?_⟩
  · exact (hread vF).trans ((if_neg (Ne.symm hx)).trans (if_pos rfl))
  · rintro rfl
    exact hresult
  · rw [hread, if_neg hrx, if_neg hrf]

/-! ### Bytes as numbers -/

/-- A flag whose condition is a proposition. -/
theorem flagByte_decide (p : Prop) [Decidable p] : flagByte (decide p) = if p then 1 else 0 := by
  simp only [flagByte, decide_eq_true_eq]

/-- R127, R129: the difference modulo 256. -/
theorem byte_sub_toNat (a b : Byte) : (a - b).toNat = (a.toNat + 256 - b.toNat) % 256 := by
  have := b.isLt
  rw [BitVec.toNat_sub]
  omega

/-- R128: a shift right by one halves. -/
theorem byte_shiftRight_one_toNat (a : Byte) : (a >>> 1).toNat = a.toNat / 2 :=
  (BitVec.toNat_ushiftRight a 1).trans (Nat.shiftRight_one a.toNat)

/-- R130: a shift left by one doubles modulo 256. -/
theorem byte_shiftLeft_one_toNat (a : Byte) : (a <<< 1).toNat = a.toNat * 2 % 256 := by
  rw [BitVec.toNat_shiftLeft, Nat.shiftLeft_eq]

/-- R128: bit 0 says whether a byte is odd. -/
theorem shiftedOutRight_eq (a : Byte) : shiftedOutRight a = decide (a.toNat % 2 = 1) := Nat.testBit_zero a.toNat

/-- R130: bit 7 says whether a byte is at least 128. -/
theorem shiftedOutLeft_eq (a : Byte) : shiftedOutLeft a = decide (a.toNat ≥ 128) :=
  (BitVec.msb_eq_getLsbD_last a).symm.trans (BitVec.msb_eq_decide a)

end Sys2Proof.Claims

namespace Sys2Proof.Proofs

open Sys2Proof Sys2Proof.Machine Sys2Proof.Claims

/-- Settles O34: both meanings are one register write. -/
theorem loadsCopyByteOrRegister : Obligations.LoadsCopyByteOrRegister :=
  fun x y nn => ⟨⟨decode_encode (i := .ldVxNn x nn) rfl, decode_encode (i := .ldVxVy x y) rfl⟩,
    fun _ => ⟨completes_of_writeV rfl, completes_of_writeV rfl⟩⟩

/-- Settles O35: the byte written is the sum modulo 256. -/
theorem addByteWrapsWithoutFlag : Obligations.AddByteWrapsWithoutFlag :=
  fun x nn => ⟨decode_encode (i := .addVxNn x nn) rfl, fun s => (completes_of_writeV rfl).mono fun _ ht =>
    (congrArg BitVec.toNat ht).trans (BitVec.toNat_add (s.readV x) nn)⟩

/-- Settles O36: the byte written is, bit by bit, the operation on the operands' bits. -/
theorem logicIsBitwiseWithoutFlag : Obligations.LogicIsBitwiseWithoutFlag := by
  refine fun x y => ⟨⟨decode_encode (i := .orVxVy x y) rfl, decode_encode (i := .andVxVy x y) rfl,
    decode_encode (i := .xorVxVy x y) rfl⟩, fun s => ⟨?_, ?_, ?_⟩⟩
  · exact (completes_of_writeV rfl).mono fun _ ht _ _ => ht ▸ BitVec.getLsbD_or
  · exact (completes_of_writeV rfl).mono fun _ ht _ _ => ht ▸ BitVec.getLsbD_and
  · exact (completes_of_writeV rfl).mono fun _ ht _ _ => ht ▸ BitVec.getLsbD_xor

/-- Settles O37: the sum is written first, the carry last. -/
theorem addSetsCarry : Obligations.AddSetsCarry := by
  refine fun x y => ⟨decode_encode (i := .addVxVy x y) rfl, fun s => ?_⟩
  rw [← flagByte_decide]
  exact completesWithFlag_of_resultThenFlag rfl (BitVec.toNat_add (s.readV x) (s.readV y))

/-- Settles O38: the flag is written first, the difference last. -/
theorem subtractSetsNoBorrow : Obligations.SubtractSetsNoBorrow :=
  fun x y => ⟨decode_encode (i := .subVxVy x y) rfl,
    fun s => completesWithFlag_of_flagThenResult rfl (byte_sub_toNat (s.readV x) (s.readV y))⟩

/-- Settles O39: as 8xy5 with the operands exchanged. -/
theorem reverseSubtractSetsNoBorrow : Obligations.ReverseSubtractSetsNoBorrow :=
  fun x y => ⟨decode_encode (i := .subnVxVy x y) rfl,
    fun s => completesWithFlag_of_flagThenResult rfl (byte_sub_toNat (s.readV y) (s.readV x))⟩

/-- Settles O40: the flag is bit 0, the shifted byte half. -/
theorem shiftRightPutsBitZeroInVF : Obligations.ShiftRightPutsBitZeroInVF := by
  refine fun x y => ⟨decode_encode (i := .shrVx x y) rfl, fun s => ?_⟩
  rw [← shiftedOutRight_eq]
  exact completesWithFlag_of_flagThenResult rfl (byte_shiftRight_one_toNat (s.readV x))

/-- Settles O41: the flag is bit 7, the shifted byte the double. -/
theorem shiftLeftPutsBitSevenInVF : Obligations.ShiftLeftPutsBitSevenInVF := by
  refine fun x y => ⟨decode_encode (i := .shlVx x y) rfl, fun s => ?_⟩
  rw [← shiftedOutLeft_eq]
  exact completesWithFlag_of_flagThenResult rfl (byte_shiftLeft_one_toNat (s.readV x))

/-- Settles O42: a masked byte has no bit outside the mask, and a byte under the mask is the one it masks to. -/
theorem randomByteIsMasked : Obligations.RandomByteIsMasked := by
  refine fun x nn => ⟨decode_encode (i := .rnd x nn) rfl, fun s => ⟨?_, fun r hr => ?_⟩⟩
  · have hx : (s.drawn.writeV x (s.nextRandom &&& nn)).readV x = s.nextRandom &&& nn :=
      State.writeV_readV_self _ x _
    have hkeep : KeepsParts [.draws] s (s.drawn.writeV x (s.nextRandom &&& nn)) :=
      (keepsParts_drawn s).trans (keepsParts_writeV _ x _)
    refine ⟨_, rfl, ⟨hx, ?_, fun k hk => ?_, Nat.succ_ne_self s.draws⟩, hkeep.changesOnly fun r hr =>
      State.writeV_readV_ne s.drawn _ (List.ne_of_not_mem_cons hr)⟩
    · rw [hx, BitVec.toNat_and]
      exact Nat.and_le_right
    · rw [hx, BitVec.getLsbD_and, hk, Bool.and_false]
  · exact ⟨r, _, rfl, (State.writeV_readV_self s.drawn x _).trans hr⟩

end Sys2Proof.Proofs
end

section
/-!
PROOFS. Index register and memory (43_index_memory.md R140 to R146): the completion of an instruction that writes `I` or
memory alone, the answer of a memory instruction by where its last address lies, and the bytes that are stored and loaded.
-/

namespace Sys2Proof.Claims

open Sys2Proof.Machine

/-! ### Completion with `I` or memory written -/

/-- An instruction whose meaning is a write of `I`, with the frame of `I`. -/
theorem completes_of_setIndex {i : Instr} {s : State} {a : Word} (h : exec i s = .next (s.setIndex a)) :
    Completes i s [] [.index] fun t => t.index = a :=
  ⟨_, h, rfl, (keepsParts_setIndex s a).changesOnly fun _ _ => rfl⟩

/-- An instruction whose meaning is a new memory, with the frame of memory. -/
theorem completes_of_setMem {i : Instr} {s : State} {m : Memory} (h : exec i s = .next (s.setMem m)) :
    Completes i s [] [.mem] fun t => t.mem = m :=
  ⟨_, h, rfl, (keepsParts_setMem s m).changesOnly fun _ _ => rfl⟩

/-! ### Values of `I` (R141, R142) -/

/-- R72: the zero-extended register is the same number. -/
theorem wideV_toNat (s : State) (x : Reg) : (s.wideV x).toNat = (s.readV x).toNat :=
  BitVec.toNat_setWidth_of_le (by decide)

/-- R142: no byte's glyph address leaves a word. -/
theorem glyphAddress_toNat (b : Byte) : (glyphAddress b).toNat = 0x050 + 5 * b.toNat := by
  have := b.isLt
  exact Nat.mod_eq_of_lt (show 0x050 + 5 * b.toNat < 2 ^ 16 by omega)

/-! ### The answer of a memory instruction (R143 to R146) -/

section Guarded

variable {i : Instr} {s t : State} {k : Nat}
  (h : (effectiveAddress s k ≤ 0xFFF ∧ exec i s = .next t) ∨
    (0xFFF < effectiveAddress s k ∧ exec i s = .fault (.memOutOfBounds (lowestOutside s) (s.pc - 2) s.ir)))

include h

/-- With the last address inside memory it completes. -/
theorem next_of_inside (hk : s.index.toNat + k ≤ 0xFFF) : exec i s = .next t := by
  obtain ⟨-, e⟩ | ⟨hout, -⟩ := h
  · exact e
  · exact absurd hk (Nat.not_le.2 hout)

/-- D9: with the last address outside memory it faults. -/
theorem memFault_of_outside (hk : 0xFFF < s.index.toNat + k) : MemFault i s := by
  obtain ⟨hin, -⟩ | ⟨-, e⟩ := h
  · exact absurd hin (Nat.not_le.2 hk)
  · exact e

end Guarded

/-! ### The decimal digits in memory (R143) -/

/-- R143: each digit is stored at its address, in the order hundreds, tens, ones. -/
theorem load_decimalDigits_byteAt {s t : State} {b : Byte} (hm : s.mem.wf)
    (ht : t.mem = s.mem.load (effectiveAddress s 0) (decimalDigits b)) (j : Nat) (hj : j < 3) :
    t.byteAt (effectiveAddress s j) = (decimalDigits b)[j] := by
  rw [State.byteAt, ht]
  exact Memory.read_load_inside (decimalDigits b) s.mem hm.1 s.index.toNat j hj

/-- R143: an address of no digit keeps its byte. -/
theorem load_decimalDigits_byteAt_outside {s t : State} {b : Byte} (hm : s.mem.wf)
    (ht : t.mem = s.mem.load (effectiveAddress s 0) (decimalDigits b)) {a : Nat}
    (ha : a < effectiveAddress s 0 ∨ effectiveAddress s 2 < a) : t.byteAt a = s.byteAt a := by
  rw [State.byteAt, ht]
  exact Memory.read_load_outside (decimalDigits b) s.mem hm.1 _ a ha

end Sys2Proof.Claims

namespace Sys2Proof.Proofs

open Sys2Proof Sys2Proof.Machine Sys2Proof.Claims

/-- Settles O45: the guard picks the answer; each digit is read back at its address, every other byte as before. -/
theorem decimalDigitsAreStored : Obligations.DecimalDigitsAreStored := by
  refine fun x => ⟨decode_encode (i := .ldBVx x) rfl, fun s =>
    ⟨memFault_of_outside (execLdBVx_cases x s), fun hm hx => ?_⟩⟩
  refine (completes_of_setMem (next_of_inside (execLdBVx_cases x s) hx)).mono fun t ht => ?_
  have hv := (s.readV x).isLt
  have hdigit (j : Nat) (hj : j < 3) := congrArg BitVec.toNat (load_decimalDigits_byteAt hm ht j hj)
  refine ⟨?_, ?_, ?_, fun a ha => load_decimalDigits_byteAt_outside hm ht ha⟩
  · exact (hdigit 0 (by decide)).trans (Nat.mod_eq_of_lt (by omega))
  · exact (hdigit 1 (by decide)).trans (Nat.mod_eq_of_lt (by omega))
  · exact (hdigit 2 (by decide)).trans (Nat.mod_eq_of_lt (by omega))

/-- Settles O46: the guard picks the answer; each register is read back at its address, every other byte as before. -/
theorem registersAreStored : Obligations.RegistersAreStored := by
  refine fun x => ⟨decode_encode (i := .ldMiVx x) rfl, fun s =>
    ⟨memFault_of_outside (execLdMiVx_cases x s), fun hm hx => ?_⟩⟩
  refine (completes_of_setMem (next_of_inside (execLdMiVx_cases x s) hx)).mono fun t ht =>
    ⟨fun r hr => ?_, fun a ha => ?_⟩
  · rw [State.byteAt, ht]
    exact storeRegs_read_self s (regsUpTo x) s.mem hm.1 r ((mem_regsUpTo x r).2 hr)
  · rw [State.byteAt, ht]
    refine storeRegs_read_other s (regsUpTo x) s.mem hm.1 a fun r hr => ?_
    have hrx : r.val ≤ x.val := (mem_regsUpTo x r).1 hr
    simp only [effectiveAddress] at ha ⊢
    omega

/-- Settles O47: the guard picks the answer; a register up to `x` holds its byte, a later one is kept. -/
theorem registersAreLoaded : Obligations.RegistersAreLoaded := by
  refine fun x => ⟨decode_encode (i := .ldVxMi x) rfl, fun s =>
    ⟨memFault_of_outside (execLdVxMi_cases x s), fun hx => ?_⟩⟩
  refine ⟨_, next_of_inside (execLdVxMi_cases x s) hx, fun r hr => ?_,
    (keepsParts_loadRegs s _).changesOnly fun r hr => ?_⟩
  · exact (loadRegs_readV s (regsUpTo x) r).trans (if_pos ((mem_regsUpTo x r).2 hr))
  · exact (loadRegs_readV s (regsUpTo x) r).trans (if_neg hr)

/-- Settles O48: the load reads, at the addresses the store wrote, the bytes it wrote. -/
theorem storeThenLoadRestoresRegisters : Obligations.StoreThenLoadRestoresRegisters := by
  refine fun x s hm hx => ⟨_, next_of_inside (execLdMiVx_cases x s) hx, fun u hmem hindex => ?_⟩
  have hi : u.index = s.index := hindex
  refine ⟨_, next_of_inside (execLdVxMi_cases x u) (hi ▸ hx), fun r hr => ?_⟩
  have hrx := (mem_regsUpTo x r).2 hr
  rw [loadRegs_readV, if_pos hrx, State.byteAt, hmem, effectiveAddress, hi]
  exact storeRegs_read_self s (regsUpTo x) s.mem hm.1 r hrx

/-- Settles O43: both meanings are one write of `I`, the glyph address without wrapping. -/
theorem indexIsLoadedWithAddressOrGlyph : Obligations.IndexIsLoadedWithAddressOrGlyph :=
  fun nnn x h => ⟨⟨decode_encode (i := .ldINnn nnn) (decide_eq_true h), decode_encode (i := .ldFVx x) rfl⟩,
    fun s => ⟨completes_of_setIndex rfl, (completes_of_setIndex rfl).mono fun _ ht =>
      (congrArg BitVec.toNat ht).trans (glyphAddress_toNat (s.readV x))⟩⟩

/-- Settles O44: the value written to `I` is the sum of two words. -/
theorem addToIndexWrapsAt65536 : Obligations.AddToIndexWrapsAt65536 := by
  refine fun x => ⟨decode_encode (i := .addIVx x) rfl, fun s => (completes_of_setIndex rfl).mono fun _ ht => ?_⟩
  rw [ht, BitVec.toNat_add, wideV_toNat]

end Sys2Proof.Proofs
end

section
/-!
PROOFS. The display (44_display.md R160 to R162): the answer of pass 1 from the rows that pass, the completion of Dxyn,
and its second draw from the state the first one leaves.
-/

namespace Sys2Proof.Claims

open Sys2Proof.Machine

/-! ### Pass 1 of Dxyn (R161, R209) -/

/-- A row passes exactly when its check finds nothing. -/
theorem rowPasses_iff (s : State) (xPos yPos r : Nat) : rowPasses s xPos yPos r 8 ↔ rowCheck s xPos yPos r = none :=
  (rowCheck_eq_none s xPos yPos r).symm

/-- The sprite passes exactly when pass 1 finds nothing. -/
theorem spritePasses_iff (s : State) (xPos yPos n : Nat) :
    spritePasses s xPos yPos n ↔ spriteCheck s xPos yPos n = none := by
  simp only [spritePasses, rowPasses_iff, spriteCheck_eq_none]

/-- D9, D13: a row whose byte lies above 0xFFF fails its memory check, before its pixels are looked at. -/
theorem rowCheck_of_outside {s : State} {r : Nat} (xPos yPos : Nat) (h : 0xFFF < effectiveAddress s r) :
    rowCheck s xPos yPos r = some (Fault.memOutOfBounds (effectiveAddress s r)) := by
  simp [rowCheck, inMemory, Nat.not_le.2 h]

/-- D10, D13: in a row that passes up to column `c`, a set bit there off the grid is the one found. -/
theorem rowCheck_of_offGrid {s : State} {xPos yPos r c : Nat} (hc : c < 8) (hpass : rowPasses s xPos yPos r c)
    (hset : spriteSet s r c = true) (hoff : xPos + c > 63 ∨ yPos + r > 31) :
    rowCheck s xPos yPos r = some (Fault.fbOutOfBounds (yPos + r) (xPos + c)) := by
  obtain ⟨hmem, hgrid⟩ := hpass
  have hfirst : firstOutside (spriteByte s r) (yPos + r) xPos = some c := by
    rw [firstOutside, List.find?_range_eq_some]
    refine ⟨?_, List.mem_range.2 hc, fun j hj => ?_⟩
    · simpa [show spriteBit (spriteByte s r) c = true from hset] using hoff
    · cases hb : spriteBit (spriteByte s r) j with
      | false => rfl
      | true => simpa using hgrid j hj hb
  simp [rowCheck, inMemory, hmem, hfirst]

/-- R209: the first row whose check finds a fault is the one pass 1 answers with. -/
theorem spriteCheck_of_first {s : State} {xPos yPos n r : Nat} {f : Word → Word → Fault} (hr : r < n)
    (hpass : ∀ q, q < r → rowPasses s xPos yPos q 8) (hf : rowCheck s xPos yPos r = some f) :
    spriteCheck s xPos yPos n = some f := by
  obtain ⟨k, rfl⟩ := Nat.exists_eq_add_of_lt hr
  have hsplit : List.range (r + k + 1) = List.range r ++ r :: (List.range k).map (r + 1 + ·) := by
    rw [Nat.add_right_comm, List.range_add, List.range_succ, List.append_assoc, List.singleton_append]
  have hnone : (List.range r).findSome? (rowCheck s xPos yPos) = none :=
    List.findSome?_eq_none_iff.2 fun q hq => (rowPasses_iff s xPos yPos q).1 (hpass q (List.mem_range.1 hq))
  rw [spriteCheck, hsplit, List.findSome?_append, hnone, Option.none_or, List.findSome?_cons, hf]

/-- R161: what pass 1 finds is the fault of Dxyn. -/
theorem drw_faults {x y : Reg} {n : Nat} {s : State} {f : Word → Word → Fault}
    (h : spriteCheck s ((s.readV x).toNat % 64) ((s.readV y).toNat % 32) n = some f) : Faults (.drw x y n) s f := by
  obtain ⟨g, hg, e⟩ | ⟨hnone, -⟩ := execDrw_cases x y n s
  · cases hg.symm.trans h
    exact e
  · cases hnone.symm.trans h

/-! ### Pass 2 of Dxyn (R161, R162) -/

/-- The covered pixels of pass 2 are those under set bits. -/
theorem coveredBySet_iff (s : State) (xPos yPos n row col : Nat) :
    coveredBySet s xPos yPos n row col ↔ spriteCovers s xPos yPos n row col = true :=
  (spriteCovers_eq_true s xPos yPos n row col).symm

/-- A collision is a pixel under a set bit that was on. -/
theorem spriteHits_iff (s : State) (xPos yPos n : Nat) : spriteHits s xPos yPos n = true ↔
    ∃ row col, coveredBySet s xPos yPos n row col ∧ s.pixelAt row col = true := by
  rw [spriteHits_eq_true]
  constructor
  · rintro ⟨q, j, hq, hj, hb, hp⟩
    exact ⟨yPos + q, xPos + j, ⟨q, j, hq, hj, rfl, rfl, hb⟩, hp⟩
  · rintro ⟨_, _, ⟨q, j, hq, hj, rfl, rfl, hb⟩, hp⟩
    exact ⟨q, j, hq, hj, hb, hp⟩

/-- R161: when pass 1 finds nothing, Dxyn toggles the covered pixels, of any index, and VF is the collision. -/
theorem drw_completes {x y : Reg} {n : Nat} {s : State}
    (h : spritePasses s ((s.readV x).toNat % 64) ((s.readV y).toNat % 32) n) :
    Completes (.drw x y n) s [vF] [.fb] fun t =>
      (∀ row col, t.pixelAt row col = (s.pixelAt row col ^^
        spriteCovers s ((s.readV x).toNat % 64) ((s.readV y).toNat % 32) n row col)) ∧
      t.readV vF = flagByte (spriteHits s ((s.readV x).toNat % 64) ((s.readV y).toNat % 32) n) := by
  obtain ⟨f, hf, -⟩ | ⟨-, e⟩ := execDrw_cases x y n s
  · cases hf.symm.trans ((spritePasses_iff s _ _ n).1 h)
  obtain ⟨hpixel, hhits⟩ := drawSprite_spec s ((s.readV x).toNat % 64) ((s.readV y).toNat % 32) n
    fun r hr c hc hb => by
      obtain ⟨-, hgrid⟩ := h r hr
      have := hgrid c hc hb
      omega
  refine ⟨_, e, ⟨hpixel, ?_⟩, ?_⟩
  · rw [State.writeFlag_readV, if_pos rfl]
    exact congrArg flagByte hhits
  · exact ((keepsParts_setFb s _).trans (keepsParts_writeV _ _ _)).changesOnly fun r hr =>
      State.writeV_readV_ne _ _ (List.ne_of_not_mem_cons hr)

theorem flagByte_eq_one_iff (c : Bool) : flagByte c = 1 ↔ c = true := by cases c <;> decide

/-! ### The second draw -/

section SameSprite

variable {s t : State} (hindex : t.index = s.index) (hbyte : ∀ a, t.byteAt a = s.byteAt a)

include hindex hbyte

/-- The same `I` and memory hold the same sprite. -/
theorem spriteByte_congr (r : Nat) : spriteByte t r = spriteByte s r := by
  rw [spriteByte, spriteByte, effectiveAddress, effectiveAddress, hindex, hbyte]

/-- Pass 1 reads the sprite alone. -/
theorem spritePasses_congr {xPos yPos n : Nat} (h : spritePasses s xPos yPos n) : spritePasses t xPos yPos n := by
  intro r hr
  obtain ⟨hmem, hgrid⟩ := h r hr
  refine ⟨by rwa [effectiveAddress, hindex], fun c hc hset => hgrid c hc ?_⟩
  have hb : spriteBit (spriteByte t r) c = true := hset
  rwa [spriteByte_congr hindex hbyte] at hb

/-- The same sprite at the same place covers the same pixels. -/
theorem spriteCovers_congr (xPos yPos n row col : Nat) :
    spriteCovers t xPos yPos n row col = spriteCovers s xPos yPos n row col := by
  simp only [spriteCovers, spriteByte_congr hindex hbyte]

end SameSprite

end Sys2Proof.Claims

namespace Sys2Proof.Proofs

open Sys2Proof Sys2Proof.Machine Sys2Proof.Claims

/-- Settles O51: a covered pixel is toggled, another is not, and VF is the collision. -/
theorem drawTogglesExactlyTheSetBits : Obligations.DrawTogglesExactlyTheSetBits := by
  refine fun x y n => ⟨fun hn => decode_encode (i := .drw x y n) (decide_eq_true hn), fun s h => ?_⟩
  refine (drw_completes h).mono fun t ⟨hpixel, hflag⟩ => ⟨fun row col _ _ => ⟨fun hc => ?_, fun hc => ?_⟩,
    fun hon => ?_, fun hoff => ?_⟩
  · rw [hpixel, (coveredBySet_iff s _ _ n row col).1 hc, Bool.xor_true]
  · rw [hpixel, Bool.eq_false_iff.2 (mt (coveredBySet_iff s _ _ n row col).2 hc), Bool.xor_false]
  · rw [hflag, (spriteHits_iff s _ _ n).2 hon]
    rfl
  · have hnone : spriteHits s ((s.readV x).toNat % 64) ((s.readV y).toNat % 32) n = false := by
      refine Bool.eq_false_iff.2 fun hhit => ?_
      obtain ⟨row, col, hc, hp⟩ := (spriteHits_iff s _ _ n).1 hhit
      exact Bool.false_ne_true ((hoff row col hc).symm.trans hp)
    rw [hflag, hnone]
    rfl

/-- Settles O52: the rows before pass, and the row's own check finds its address, or else its first bit off the grid. -/
theorem drawFaultsAtTheFirstFailingCheck : Obligations.DrawFaultsAtTheFirstFailingCheck :=
  fun _ _ _ _ _ hr hpass =>
    ⟨fun hmem => drw_faults (spriteCheck_of_first hr hpass (rowCheck_of_outside _ _ hmem)),
      fun _ hc hrow hset hoff => drw_faults (spriteCheck_of_first hr hpass (rowCheck_of_offGrid hc hrow hset hoff))⟩

/-- Settles O53: the second draw covers the same pixels, and finds on those that the first found off. -/
theorem drawingTwiceRestoresTheFramebuffer : Obligations.DrawingTwiceRestoresTheFramebuffer := by
  intro x y n s hx hy h
  obtain ⟨t, ht, ⟨hpixel, -⟩, hframe⟩ := drw_completes h
  have hindex : t.index = s.index := hframe.index (by decide)
  have hbyte := hframe.mem (by decide)
  have hxpos : t.readV x = s.readV x := hframe.regs x (by simpa using hx)
  have hypos : t.readV y = s.readV y := hframe.regs y (by simpa using hy)
  have h' : spritePasses t ((t.readV x).toNat % 64) ((t.readV y).toNat % 32) n := by
    rw [hxpos, hypos]
    exact spritePasses_congr hindex hbyte h
  obtain ⟨u, hu, ⟨hpixel', hflag'⟩, -⟩ := drw_completes h'
  rw [hxpos, hypos] at hpixel' hflag'
  have hcovers := spriteCovers_congr hindex hbyte ((s.readV x).toNat % 64) ((s.readV y).toNat % 32) n
  refine ⟨t, u, ht, hu, fun row col => ?_, ?_⟩
  · rw [hpixel', hpixel, hcovers, Bool.xor_assoc, Bool.xor_self, Bool.xor_false]
  · rw [hflag', flagByte_eq_one_iff, spriteHits_iff]
    refine exists_congr fun row => exists_congr fun col => ?_
    rw [coveredBySet_iff, coveredBySet_iff, hcovers]
    refine and_congr_right fun hc => ?_
    rw [hpixel, hc, Bool.xor_true, Bool.not_eq_true']

/-- Settles O50: the meaning of 00E0 writes the blank framebuffer alone. -/
theorem clearScreenTurnsEveryPixelOff : Obligations.ClearScreenTurnsEveryPixelOff :=
  ⟨rfl, fun s => ⟨_, rfl, fun r c _ _ => Framebuffer.pixel_blank r c,
    (keepsParts_setFb s _).changesOnly fun _ _ => rfl⟩⟩

end Sys2Proof.Proofs
end

section
/-!
PROOFS. Keypad and timers (45_keypad_timers.md R170 to R175): the answers of the key instructions by what the keypad
holds, the whole waiting cycle of Fx0A, and the tick that ends the cycle of a timer instruction.
-/

namespace Sys2Proof.Claims

open Sys2Proof.Machine

/-! ### The skips on a key (R170, R171) -/

/-- R170, R171: a skip on a key that exists, its condition a proposition. -/
theorem skipOnKey_of_le {x : Reg} {s : State} (b : Bool) (h : (s.readV x).toNat ≤ 15) :
    skipOnKey x b s = .next (s.skipIf (decide (s.keyAt (s.readV x).toNat = b))) := by
  obtain ⟨-, e⟩ | ⟨hgt, -⟩ := skipOnKey_cases x b s
  · exact e
  · omega

/-- R208, D11: a skip on a key index above 15. -/
theorem skipOnKey_of_gt {x : Reg} {s : State} (b : Bool) (h : 15 < (s.readV x).toNat) :
    skipOnKey x b s = .fault (.keyIndexOutOfRange (s.readV x) (s.pc - 2) s.ir) := by
  obtain ⟨hle, -⟩ | ⟨-, e⟩ := skipOnKey_cases x b s
  · omega
  · exact e

/-! ### The wait for a key (R172) -/

/-- R172: Fx0A with a key pressed. -/
theorem exec_ldVxK_of_some (x : Reg) {s : State} {k : Nat} (h : s.firstKey = some k) :
    exec (.ldVxK x) s = .next (s.writeV x (BitVec.ofNat 8 k)) := by
  obtain ⟨j, hj, e⟩ | ⟨hnone, -⟩ := execLdVxK_cases x s
  · obtain rfl : k = j := Option.some.inj (h.symm.trans hj)
    exact e
  · simp [h] at hnone

/-- R172: Fx0A with no key pressed. -/
theorem exec_ldVxK_of_none (x : Reg) {s : State} (h : s.firstKey = none) :
    exec (.ldVxK x) s = .next (s.setPc (s.pc - 2)) := by
  obtain ⟨j, hj, -⟩ | ⟨-, e⟩ := execLdVxK_cases x s
  · simp [h] at hj
  · exact e

/-! ### Whole cycles -/

/-- R90, R94: the cycle of a fetched instruction that completes ends in the tick. -/
theorem Fetches.step_of_exec {s u : State} {w : Word} {i : Instr} (h : Fetches s w i)
    (hu : exec i (s.fetched w) = .next u) : step s = .next u.tick := by
  rw [h.step_eq, hu, endCycle_next]

/-- R172 within R90: the waiting cycle takes the fetch's advance of `pc` back, so that the fetched word and the tick are
all that is left of it. -/
theorem Fetches.step_ldVxK_waiting {s : State} {w : Word} {x : Reg} (h : Fetches s w (.ldVxK x))
    (hkey : s.firstKey = none) : step s = .next { s with ir := w }.tick := by
  have hback : (s.fetched w).setPc ((s.fetched w).pc - 2) = { s with ir := w } := by
    rw [State.fetched_pc, BitVec.add_sub_cancel]
    rfl
  rw [h.step_of_exec (exec_ldVxK_of_none x (s := s.fetched w) hkey), hback]

theorem KeepsParts.mono {ps qs : List Part} {s t : State} (h : KeepsParts ps s t) (hsub : ps ⊆ qs) :
    KeepsParts qs s t := fun p hp => h p (mt (@hsub p) hp)

/-- What the fetched word and the tick leave unchanged. -/
theorem keepsParts_ir_tick (s : State) (w : Word) : KeepsParts [.ir, .dt, .st] s { s with ir := w }.tick :=
  ((keepsParts_ir s w).mono (by simp)).trans ((keepsParts_tick _).mono (by simp))

end Sys2Proof.Claims

namespace Sys2Proof.Proofs

open Sys2Proof Sys2Proof.Machine Sys2Proof.Claims

/-- Settles O55: the scan finds the least pressed key, or none, and then the cycle is a load of `ir` and a tick. -/
theorem keyWaitTakesTheLeastPressedKey : Obligations.KeyWaitTakesTheLeastPressedKey := by
  refine fun x => ⟨decode_encode (i := .ldVxK x) rfl, fun s => ⟨fun k hk hpressed hleast => ?_, fun hnone => ?_⟩⟩
  · have hfirst : s.firstKey = some k := (s.firstKey_eq_some k).2 ⟨hk, hpressed, hleast⟩
    refine (completes_of_writeV (exec_ldVxK_of_some x hfirst)).mono fun t ht => ?_
    rw [ht, BitVec.toNat_ofNat, Nat.mod_eq_of_lt (by omega)]
  · have hfirst : s.firstKey = none := s.firstKey_eq_none.2 hnone
    refine ⟨⟨_, exec_ldVxK_of_none x hfirst, rfl, (keepsParts_setPc s _).changesOnly fun _ _ => rfl⟩, fun w hf => ?_⟩
    exact ⟨_, hf.step_ldVxK_waiting hfirst, rfl, rfl, countDown_toNat s.dt, countDown_toNat s.st,
      (keepsParts_ir_tick s w).changesOnly fun _ _ => rfl⟩

/-- Settles O54: both meanings are the skip on the state of the key, guarded by its index. -/
theorem keySkipsTestTheKeyInVx : Obligations.KeySkipsTestTheKeyInVx :=
  fun x => ⟨⟨decode_encode (i := .skp x) rfl, decode_encode (i := .sknp x) rfl⟩,
    fun _ => ⟨fun hgt => ⟨skipOnKey_of_gt true hgt, skipOnKey_of_gt false hgt⟩,
      fun hle => ⟨completes_skipIf (skipOnKey_of_le true hle) (fun _ => rfl) rfl,
        completes_skipIf (skipOnKey_of_le false hle) (fun _ => rfl) rfl⟩⟩⟩

/-- Settles O56: each meaning is one write, and the tick counts down what it leaves in the timers. -/
theorem timerInstructionsReadAndSetTheTimers : Obligations.TimerInstructionsReadAndSetTheTimers := by
  refine fun x => ⟨⟨decode_encode (i := .ldVxDt x) rfl, decode_encode (i := .ldDtVx x) rfl,
    decode_encode (i := .ldStVx x) rfl⟩, fun s => ⟨⟨completes_of_writeV rfl, ?_, ?_⟩, fun w => ⟨?_, ?_, ?_⟩⟩⟩
  · exact ⟨_, rfl, rfl, (keepsParts_setDt s _).changesOnly fun _ _ => rfl⟩
  · exact ⟨_, rfl, rfl, (keepsParts_setSt s _).changesOnly fun _ _ => rfl⟩
  · exact fun hf => ⟨_, hf.step_of_exec rfl, State.writeV_readV_self (s.fetched w) x s.dt, countDown_toNat s.dt⟩
  · exact fun hf => ⟨_, hf.step_of_exec rfl, countDown_toNat (s.readV x)⟩
  · exact fun hf => ⟨_, hf.step_of_exec rfl, countDown_toNat (s.readV x)⟩

end Sys2Proof.Proofs
end

section
/-!
PROOFS. Faults (60_exceptions.md R201, R202, R205): which cause codes an execute step can raise and what its record
names, the record of a whole cycle, and the machine a faulting cycle leaves.
-/

namespace Sys2Proof.Claims

open Sys2Proof.Machine

/-! ### The fault of an execute step (R201, R205) -/

/-- The fault `f` has one of the cause codes `codes`, and its record names the instruction executing in `s`: `pc` has
passed its address by 2 (R91), `ir` holds its word (R35). -/
structure RecordsFault (codes : List Nat) (s : State) (f : Fault) : Prop where
  code : f.code ∈ codes
  addr : f.addr = s.pc - 2
  word : f.word = some s.ir

/-- The fault of a meaning that completes in one case and faults in the other. -/
theorem fault_eq_of_cases {p q : Prop} {o : Result} {t : State} {f g : Fault}
    (h : p ∧ o = .next t ∨ q ∧ o = .fault g) (hf : o = .fault f) : f = g := by
  obtain ⟨-, e⟩ | ⟨-, e⟩ := h
  · cases e.symm.trans hf
  · cases e.symm.trans hf
    rfl

/-- R101: the only fault of 00EE. -/
theorem execRet_fault {s : State} {f : Fault} (h : execRet s = .fault f) :
    f = .stackUnderflow s.sp (s.pc - 2) s.ir := by
  obtain ⟨-, e⟩ | ⟨-, -, e⟩ | ⟨-, e⟩ := execRet_cases s
  · cases e.symm.trans h
    rfl
  · cases e.symm.trans h
  · cases e.symm.trans h

/-- R161 pass 1: what the check of one row can find. -/
theorem rowCheck_some {s : State} {xPos yPos r : Nat} {g : Word → Word → Fault} (h : rowCheck s xPos yPos r = some g) :
    (∃ a, g = .memOutOfBounds a) ∨ ∃ row col, g = .fbOutOfBounds row col := by
  unfold rowCheck at h
  split at h
  · obtain ⟨c, -, rfl⟩ := Option.map_eq_some_iff.1 h
    exact .inr ⟨_, _, rfl⟩
  · cases h
    exact .inl ⟨_, rfl⟩

/-- R161: the faults of Dxyn. -/
theorem execDrw_fault {x y : Reg} {n : Nat} {s : State} {f : Fault} (h : execDrw x y n s = .fault f) :
    (∃ a, f = .memOutOfBounds a (s.pc - 2) s.ir) ∨ ∃ row col, f = .fbOutOfBounds row col (s.pc - 2) s.ir := by
  obtain ⟨g, hg, e⟩ | ⟨-, e⟩ := execDrw_cases x y n s
  · cases e.symm.trans h
    obtain ⟨r, -, hr⟩ := List.exists_of_findSome?_eq_some hg
    obtain ⟨a, rfl⟩ | ⟨row, col, rfl⟩ := rowCheck_some hr
    · exact .inl ⟨a, rfl⟩
    · exact .inr ⟨row, col, rfl⟩
  · cases e.symm.trans h

/-- R201: an instruction with no listed fault completes in every state. -/
theorem exec_completes_of_no_faultCodes {i : Instr} (s : State) (h : faultCodes i = []) : ∃ t, exec i s = .next t := by
  cases i with
  | call _ | ret | ldBVx _ | ldMiVx _ | ldVxMi _ | drw _ _ _ | skp _ | sknp _ => cases h
  | ldVxK x =>
    obtain ⟨k, -, e⟩ | ⟨-, e⟩ := execLdVxK_cases x s
    · exact ⟨_, e⟩
    · exact ⟨_, e⟩
  | _ => exact ⟨_, rfl⟩

theorem faultCodes_ne_nil_of_fault {i : Instr} {s : State} {f : Fault} (h : exec i s = .fault f) :
    faultCodes i ≠ [] := by
  intro hnil
  obtain ⟨t, ht⟩ := exec_completes_of_no_faultCodes s hnil
  cases ht.symm.trans h

/-- R201, R205: the fault of an execute step is one of those listed, precisely recorded. -/
theorem exec_recordsFault {i : Instr} {s : State} {f : Fault} (h : exec i s = .fault f) :
    RecordsFault (faultCodes i) s f := by
  cases i with
  | call nnn => exact fault_eq_of_cases (execCall_cases nnn s) h ▸ ⟨List.mem_cons_self, rfl, rfl⟩
  | ret => exact execRet_fault h ▸ ⟨List.mem_cons_self, rfl, rfl⟩
  | ldBVx x => exact fault_eq_of_cases (execLdBVx_cases x s) h ▸ ⟨List.mem_cons_self, rfl, rfl⟩
  | ldMiVx x => exact fault_eq_of_cases (execLdMiVx_cases x s) h ▸ ⟨List.mem_cons_self, rfl, rfl⟩
  | ldVxMi x => exact fault_eq_of_cases (execLdVxMi_cases x s) h ▸ ⟨List.mem_cons_self, rfl, rfl⟩
  | drw _ _ _ =>
    obtain ⟨a, rfl⟩ | ⟨row, col, rfl⟩ := execDrw_fault h
    · exact ⟨List.mem_cons_self, rfl, rfl⟩
    · exact ⟨List.mem_cons_of_mem _ List.mem_cons_self, rfl, rfl⟩
  | skp x => exact fault_eq_of_cases (skipOnKey_cases x true s) h ▸ ⟨List.mem_cons_self, rfl, rfl⟩
  | sknp x => exact fault_eq_of_cases (skipOnKey_cases x false s) h ▸ ⟨List.mem_cons_self, rfl, rfl⟩
  | _ => exact (faultCodes_ne_nil_of_fault h rfl).elim

/-! ### The fault of a cycle (R205) -/

/-- R201: the record of a faulting cycle names `pc` and the word the cycle fetched, if it fetched one. -/
theorem step_fault_record {s : State} {f : Fault} (h : step s = .fault f) : f.addr = s.pc ∧ f.word = s.fetchWord := by
  obtain ⟨-, e⟩ | ⟨-, hpc, e⟩ | ⟨w, d, -, hw, -, e⟩ | ⟨w, i, -, hw, -, e⟩ := step_cases s
  · cases e.symm.trans h
  · cases e.symm.trans h
    exact ⟨rfl, (fetchWord_of_gt s hpc).symm⟩
  · cases e.symm.trans h
    exact ⟨rfl, hw.symm⟩
  · obtain ⟨-, haddr, hword⟩ := exec_recordsFault (endCycle_eq_fault (e.symm.trans h))
    exact ⟨haddr.trans (BitVec.add_sub_cancel s.pc 2), hword.trans hw.symm⟩

theorem keepsParts_enterFault (s : State) (f : Fault) : KeepsParts [.latch] s (s.enterFault f) :=
  keepsParts_of_mem s List.mem_cons_self fun q hq => by cases q <;> simp_all [SamePart]

end Sys2Proof.Claims

namespace Sys2Proof.Proofs

open Sys2Proof Sys2Proof.Machine Sys2Proof.Claims

/-- Settles O16: each meaning that can fault names its faults, and every other one completes. -/
theorem instructionsRaiseOnlyTheirListedFaults : Obligations.InstructionsRaiseOnlyTheirListedFaults :=
  ⟨fun _ _ _ h => have ⟨hcode, haddr, hword⟩ := exec_recordsFault h; ⟨hcode, haddr, hword⟩,
    fun _ s h => exec_completes_of_no_faultCodes s h⟩

/-- Settles O11: the machine after the cycle is that of its start with the latch and the record written, and a halted
core does nothing more. -/
theorem faultFreezesTheStateOfTheCyclesStart : Obligations.FaultFreezesTheStateOfTheCyclesStart := by
  intro s f h
  obtain ⟨haddr, hword⟩ := step_fault_record h
  rw [cycle_of_fault h]
  exact ⟨rfl, rfl, haddr, hword, (keepsParts_enterFault s f).changesOnly fun _ _ => rfl, cycle_halted rfl⟩

/-- Settles O9: the word is fetched, and the decoder rejects it by name. -/
theorem wordOfNoPatternIsADecodeError : Obligations.WordOfNoPatternIsADecodeError := by
  intro s hhalted hpc hnone
  obtain ⟨-, -, hreject⟩ := wordIsLegalExactlyWhenItMatchesARow
    (wordOf (s.byteAt s.pc.toNat) (s.byteAt (s.pc.toNat + 1)))
  exact ⟨_, step_decode_fault hhalted (fetchWord_of_le s hpc) (hreject hnone), rfl, rfl, rfl, rfl⟩

end Sys2Proof.Proofs
end

section
/-!
PROOFS. Reset of a core, fresh or already run (70_reset_and_hazards.md R231, R234, R237): the loader's answer decides, and
an image is rejected exactly when it is longer than 3584 bytes.
-/

namespace Sys2Proof.Claims

open Sys2Proof.Machine

/-- R234, R212: a rejected image leaves the core it is offered to as it was (assumption log 12). -/
theorem resetFrom_of_gt (s : State) {rom : List Byte} (h : 3584 < rom.length) : s.resetFrom rom = s := by
  rw [State.resetFrom, resetWith_of_gt h]

end Sys2Proof.Claims

namespace Sys2Proof.Proofs

open Sys2Proof.Machine Sys2Proof.Claims

/-- Settles O24: the loader rejects the image with its length, and a reset event keeps the core on a rejection. -/
theorem oversizedImageIsALoadError : Obligations.OversizedImageIsALoadError :=
  fun _ s h => ⟨resetWith_of_gt h, resetFrom_of_gt s h⟩

/-- Settles O25: an answer of the loader means that the image fits, and the reset event then builds the loaded state with
nothing of the previous run but its count of draws. -/
theorem resetDiscardsThePreviousRun : Obligations.ResetDiscardsThePreviousRun := by
  intro rom s t h
  obtain ⟨hlen, rfl⟩ := resetWith_eq_ok h
  exact resetFrom_of_le s hlen

end Sys2Proof.Proofs
end
